-- ==== Sys2Proof/Word.lean ====
section
/-! DEFINITION. The vocabulary of the bus: bytes and words (spec/00_scope.md R9), the pins (10_state.md R13, R20),
the bus events (20_memory.md R44), the items of a transaction (R45) and the registers of the peer (R46). -/

namespace Sys2Proof

/-- `u8` of R9. -/
abbrev Byte := BitVec 8

/-- `u32` of R9: a host word or a key mask. -/
abbrev Word := BitVec 32

/-- The level of a line, R9: `false` is 0 (low), `true` is 1 (high). -/
abbrev Level := Bool

/-- Direction of DIO as the block drives it (R13 `dio_dir`): OUT or IN. -/
inductive DioDir where
  | output
  | input
  deriving DecidableEq, Repr, Inhabited

/-- The pin fields of the block's state (R13, R20): levels on STB and CLK, DIO's direction and output latch. -/
structure Pins where
  stb : Level
  clk : Level
  dioDir : DioDir
  dioOut : Level
  deriving DecidableEq, Repr, Inhabited

/-- The bus events of R44, in R44's order. -/
inductive Event where
  | stb (l : Level)
  | clk (l : Level)
  | dioDir (d : DioDir)
  | dioDrive (l : Level)
  | dioSample (l : Level)
  | delay (units : Nat)
  | platInit
  | platDeinit
  deriving DecidableEq, Repr

/-- The items of a transaction (R45): a byte written to the peer or a byte read from it. -/
inductive BusItem where
  | wr (b : Byte)
  | rd (b : Byte)
  deriving DecidableEq, Repr

/-- The peer's `mode` (R46). -/
inductive PeerMode where
  | write
  | read
  deriving DecidableEq, Repr, Inhabited

/-- The peer's `amode` (R46). -/
inductive AddrMode where
  | auto
  | fixed
  deriving DecidableEq, Repr, Inhabited

/-- The peer's `tmode` (R46). -/
inductive TestMode where
  | normal
  | test
  deriving DecidableEq, Repr, Inhabited

/-- The peer's bus-visible registers (R46), all but its display memory.
`keys` is the key matrix, K[r][c] at bit r*8 + c; it is the environment's input. -/
structure PeerRegs where
  mode : PeerMode
  amode : AddrMode
  tmode : TestMode
  ptr : Fin 17
  dispOn : Bool
  bright : BitVec 3
  keys : BitVec 24
  deriving DecidableEq, Repr, Inhabited

/-- What PEER_OVERFLOW (R8, R48) fixes: where a data byte goes that arrives while `ptr` = 16 (nowhere, or an
address), and what `ptr` is afterwards. -/
structure OverflowTarget where
  store : Option (Fin 16)
  ptr : Fin 17
  deriving DecidableEq, Repr, Inhabited

end Sys2Proof
end

