-- ==== Sys2Proof/Syntax.lean ====
section
/-! DEFINITION. The instructions: one constructor per row of spec/opcode_table.json, the four wire commands of
spec/30_encoding.md R55 and the ten host operations of R58, with R60's operands at R60's widths. -/

namespace Sys2Proof

inductive Instr where
  /-- DATA_WRITE (R72). -/
  | dataWrite
  /-- DATA_READ (R73). -/
  | dataRead
  /-- ADDR_SET (R74): start address `a`. -/
  | addrSet (a : BitVec 4)
  /-- DISP_CTRL (R75): display on, brightness. -/
  | dispCtrl (on : Bool) (br : BitVec 3)
  /-- INIT (R109): A = display type. -/
  | init (t : Byte)
  /-- DEINIT (R110). -/
  | deinit
  /-- CONFIG (R76): A = brightness, B = on-flag. -/
  | config (br on : Byte)
  /-- SETS (R83): A = position, B = glyph byte. -/
  | sets (p g : Byte)
  /-- SETM (R82): A = start position, B = count, payload of glyph bytes. -/
  | setm (p n : Byte) (payload : List Byte)
  /-- SETSHEX (R99): A = position, B = value. -/
  | setsHex (p v : Byte)
  /-- SETMHEX (R98): A = start position, B = count, payload of values. -/
  | setmHex (p n : Byte) (payload : List Byte)
  /-- SETSCHAR (R101): A = position, B = value. -/
  | setsChar (p v : Byte)
  /-- SETMCHAR (R100): A = start position, B = count, payload of values. -/
  | setmChar (p n : Byte) (payload : List Byte)
  /-- SCAN (R108). -/
  | scan
  deriving DecidableEq, Repr

/-- The ten host operations of R58, as against the four wire commands of R55. -/
def Instr.isHostOp : Instr → Bool
  | .dataWrite | .dataRead | .addrSet _ | .dispCtrl _ _ => false
  | .init _ | .deinit | .config _ _ | .sets _ _ | .setm _ _ _ | .setsHex _ _ | .setmHex _ _ _ | .setsChar _ _
  | .setmChar _ _ _ | .scan => true

end Sys2Proof
end

