-- ==== Sys2Proof/WellFormed.lean ====
section
/-! DEFINITION. Which operands an operation admits: spec/30_encoding.md R60 (display type) and R61 (position, count,
payload length). An instruction that breaks one is decoded and then refused (60_exceptions.md R113), not undecodable. -/

namespace Sys2Proof

/-- R60: the display type is 0x00 CATHODE or 0x01 ANODE. -/
def typeOk (t : Byte) : Bool := t == 0x00 || t == 0x01

/-- R61: a position satisfies P <= 15. -/
def positionOk (p : Byte) : Bool := decide (p.toNat ≤ 15)

/-- R61: start and count satisfy P <= 15 and P + N <= 16, and the payload holds exactly N bytes. -/
def rangeOk (p n : Byte) (payload : List Byte) : Bool :=
  decide (p.toNat ≤ 15) && decide (p.toNat + n.toNat ≤ 16) && decide (payload.length = n.toNat)

/-- Every operand is one the spec admits. -/
def Instr.wellFormed : Instr → Bool
  | .dataWrite | .dataRead | .addrSet _ | .dispCtrl _ _ | .deinit | .config _ _ | .scan => true
  | .init t => typeOk t
  | .sets p _ | .setsHex p _ | .setsChar p _ => positionOk p
  | .setm p n v | .setmHex p n v | .setmChar p n v => rangeOk p n v

/-- The same as a proposition. -/
abbrev Instr.WellFormed (i : Instr) : Prop := i.wellFormed = true

end Sys2Proof
end

