-- ==== Sys2Proof/Decode.lean ====
section
/-! DEFINITION. The two encoded interfaces of spec/30_encoding.md: wire command bytes (R51-R57) and host operation
words with their payload (R58-R61). Decoding is total and rejects by name; the encoder follows. -/

namespace Sys2Proof

/-- Why nothing is decoded. -/
inductive DecodeError where
  /-- A host word R59 refuses as `BadWord` (or a payload given to an operation that takes none, assumption 15). -/
  | badWord
  /-- A wire byte R56 reserves: the block never emits it and it has no meaning. -/
  | reservedCommand
  deriving DecidableEq, Repr

/-- An instruction as it is encoded: one byte on the wire (R57), or a host word and its payload (R59). -/
inductive Encoded where
  | wire (b : Byte)
  | host (w : Word) (payload : List Byte)
  deriving DecidableEq, Repr

/-! ### The four wire command patterns (R55) -/

/-- DATA_WRITE = 0x40 (R72). -/
def cmdDataWrite : Byte := 0x40

/-- DATA_READ = 0x42 (R73). -/
def cmdDataRead : Byte := 0x42

/-- ADDR(a) = 0xC0 | zext_8(a) (R74). -/
def cmdAddr (a : BitVec 4) : Byte := 0xC0 ||| a.setWidth 8

/-- DISP(br, on) = 0x80 | (br & 0b111) | (on ? 0x08 : 0x00) (R75). -/
def cmdDisp (br : Byte) (on : Bool) : Byte := 0x80 ||| (br &&& 0x07) ||| (if on then 0x08 else 0x00)

/-- A wire byte: the four patterns of R55, nothing else (R56). -/
def decodeWire (b : Byte) : Except DecodeError Instr :=
  if b = 0x40 then .ok .dataWrite
  else if b = 0x42 then .ok .dataRead
  else if b &&& 0xF0 = 0xC0 then .ok (.addrSet (b.extractLsb' 0 4))
  else if b &&& 0xF0 = 0x80 then .ok (.dispCtrl (b.getLsbD 3) (b.extractLsb' 0 3))
  else .error .reservedCommand

/-! ### The host word (R59) -/

/-- OP, bits [3:0]. -/
def opField (w : Word) : BitVec 4 := w.extractLsb' 0 4

/-- A, bits [15:8]. -/
def aField (w : Word) : Byte := w.extractLsb' 8 8

/-- B, bits [23:16]. -/
def bField (w : Word) : Byte := w.extractLsb' 16 8

/-- The reserved fields, bits [7:4] and [31:24], are 0. -/
def reservedZero (w : Word) : Bool := w.extractLsb' 4 4 == 0 && w.extractLsb' 24 8 == 0

/-- An instruction under its side conditions, else `BadWord`. -/
def accept (ok : Bool) (i : Instr) : Except DecodeError Instr := if ok then .ok i else .error .badWord

/-- A host word and its payload (R59, R60). -/
def decodeHost (w : Word) (payload : List Byte) : Except DecodeError Instr :=
  let a := aField w
  let b := bField w
  let ok := reservedZero w
  let single := ok && payload.isEmpty
  match (opField w).toNat with
  | 0 => accept (single && b == 0) (.init a)
  | 1 => accept (single && a == 0 && b == 0) .deinit
  | 2 => accept single (.config a b)
  | 3 => accept single (.sets a b)
  | 4 => accept ok (.setm a b payload)
  | 5 => accept single (.setsHex a b)
  | 6 => accept ok (.setmHex a b payload)
  | 7 => accept single (.setsChar a b)
  | 8 => accept ok (.setmChar a b payload)
  | 9 => accept (single && a == 0 && b == 0) .scan
  | _ => .error .badWord

/-- The decoder, total on every wire byte and on every host word with any payload. -/
def decode : Encoded → Except DecodeError Instr
  | .wire b => decodeWire b
  | .host w payload => decodeHost w payload

/-! ### The encoder -/

/-- R59's layout: OP, A and B, reserved fields 0. -/
def hostWord (op : BitVec 4) (a b : Byte) : Word :=
  op.setWidth 32 ||| (a.setWidth 32 <<< 8) ||| (b.setWidth 32 <<< 16)

/-- The words of an instruction (R55, R58-R60). -/
def encode : Instr → Encoded
  | .dataWrite => .wire cmdDataWrite
  | .dataRead => .wire cmdDataRead
  | .addrSet a => .wire (cmdAddr a)
  | .dispCtrl on br => .wire (cmdDisp (br.setWidth 8) on)
  | .init t => .host (hostWord 0x0 t 0) []
  | .deinit => .host (hostWord 0x1 0 0) []
  | .config br on => .host (hostWord 0x2 br on) []
  | .sets p g => .host (hostWord 0x3 p g) []
  | .setm p n v => .host (hostWord 0x4 p n) v
  | .setsHex p v => .host (hostWord 0x5 p v) []
  | .setmHex p n v => .host (hostWord 0x6 p n) v
  | .setsChar p v => .host (hostWord 0x7 p v) []
  | .setmChar p n v => .host (hostWord 0x8 p n) v
  | .scan => .host (hostWord 0x9 0 0) []

/-! ### The opcode table's numbering -/

/-- The operations that take a payload (R59): OP 4, 6 and 8. -/
def takesPayload (w : Word) : Bool := opField w == 4 || opField w == 6 || opField w == 8

/-- The payload of a table word: N = B bytes, the first at bits 39..32, the next above it, and so on; every bit from
`nbits` up is 0. -/
def tablePayload (nbits w : Nat) : List Byte :=
  let x := w % 2 ^ nbits
  if takesPayload (BitVec.ofNat 32 x) then
    (List.range (bField (BitVec.ofNat 32 x)).toNat).map fun k => BitVec.ofNat 8 (x / 2 ^ (32 + 8 * k))
  else []

/-- A table word as it is encoded: rows of at most 8 bits are wire bytes (format WIRE8), longer ones host words
(HOST32, HOST32+payload). Assumption 25. -/
def tableEncoded (nbits w : Nat) : Encoded :=
  if nbits ≤ 8 then .wire (BitVec.ofNat 8 (w % 2 ^ nbits))
  else .host (BitVec.ofNat 32 (w % 2 ^ nbits)) (tablePayload nbits w)

/-- The instruction the decoder reads from a table word (none where it refuses). -/
def decodeTableWord (nbits w : Nat) : Option Instr := (decode (tableEncoded nbits w)).toOption

end Sys2Proof
end

