-- ==== Sys2Proof/Config.lean ====
section
/-! DEFINITION. What an implementation fixes (spec/00_scope.md R8) and the free values (spec/93_implementation_defined.md).
Every constant the spec calls OPEN has no body: a claim holds whatever it is. -/

namespace Sys2Proof

/-- The level `SampleDIO()` returns when the oracle answers: any level, a function of the trace so far and of a free
choice (R27, D38). The second argument is the counter `draws` of the state. Free value, assumption 4 (safe). -/
opaque Config.dioLevel : List Event → Nat → Level

/-- Bits 31..24 of the key mask: any value at each scan (R105, D16). Free value, assumption 5 (safe). -/
opaque Config.maskHigh : Nat → BitVec 8

/-- INERT (R8, R110, D22): levels and direction of the lines after DEINITIALIZE. OPEN, assumption 6 (safe). -/
opaque Config.inert : Pins

/-- PEER_INIT (R8, R46, D18): the peer's registers at power-on. OPEN, assumption 2 (safe). -/
opaque Config.peerInit : PeerRegs

/-- PEER_INIT (R8, R46, U11): the byte at each address of the peer's display memory at power-on. OPEN, assumption 3
(safe). -/
opaque Config.peerInitRam : Nat → Byte

/-- PEER_OVERFLOW (R8, R48, D18). OPEN, assumption 7 (safe). -/
opaque Config.peerOverflow : OverflowTarget

/-- T_UNIT (R8, D8): microseconds in one timing unit. OPEN, assumption 8 (safe). -/
opaque Config.tUnit : Nat

/-- PEER_TWAIT (R127, D8): the peer's least wait between the read command and the first read clock, in microseconds.
OPEN, assumption 8 (safe). -/
opaque Config.peerTwait : Nat

/-- PEER_MIN_HALF (R128, D8): the peer's least CLK pulse width, in microseconds. OPEN, assumption 8 (safe). -/
opaque Config.peerMinHalf : Nat

/-- OVERSCORE_CODE's default (R8, D29), '~'. Assumption 18. -/
def Config.overscoreDefault : Byte := 0x7E

/-- READ_HALF_UNITS (R8, D7): the "wait" in each read half-bit, decided 1. -/
def Config.readHalfUnits : Nat := 1

/-- WRITE_HALF_UNITS (R7). -/
def Config.writeHalfUnits : Nat := 1

/-- READ_SETTLE_UNITS (R7). -/
def Config.readSettleUnits : Nat := 5

/-- READ_INTERBYTE_UNITS (R7). -/
def Config.readInterbyteUnits : Nat := 2

end Sys2Proof
end

