-- ==== Sys2Proof/Machine/GlyphTables.lean ====
section
/-! DEFINITION. GLYPH_ROM (spec/20_memory.md R30, 43_glyph_rom.md R88): the two tables HEX_GLYPH and CHAR_GLYPH, which are
parameters of the machine (00_scope.md R8), and the spec's defaults for them (R90, R91; assumption 18). -/

namespace Sys2Proof.Machine

/-- The tables a machine is built with (R8, R88): any two are admitted, and no operation writes them. -/
structure GlyphRom where
  /-- HEX_GLYPH[0..15]. -/
  hex : Vector Byte 16
  /-- CHAR_GLYPH[0..127]. -/
  char : Vector Byte 128
  deriving DecidableEq, Repr

/-- HEX_GLYPH[c], for c in 0..15. -/
def GlyphRom.hexAt (rom : GlyphRom) (c : Nat) : Byte := rom.hex.toList.getD c 0x00

/-- CHAR_GLYPH[c], for c in 0..127. -/
def GlyphRom.charAt (rom : GlyphRom) (c : Nat) : Byte := rom.char.toList.getD c 0x00

/-! ### The defaults -/

/-- HEX_GLYPH's default (R90). -/
def hexDefault : Vector Byte 16 :=
  #v[0x3F, 0x06, 0x5B, 0x4F, 0x66, 0x6D, 0x7D, 0x07, 0x7F, 0x6F, 0x77, 0x7C, 0x39, 0x5E, 0x79, 0x71]

/-- Letters A to H of R91, one row of its table a line: (code, glyph). -/
def charRowsAtoH : List (Byte × Byte) :=
  [(0x41, 0x77), (0x61, 0x77),
   (0x62, 0x7C),
   (0x43, 0x39), (0x63, 0x39),
   (0x64, 0x5E), (0x44, 0x5E),
   (0x45, 0x79), (0x65, 0x79),
   (0x46, 0x71), (0x66, 0x71),
   (0x67, 0x6F),
   (0x47, 0x3D),
   (0x68, 0x74),
   (0x48, 0x76)]

/-- Letters i to P of R91. -/
def charRowsItoP : List (Byte × Byte) :=
  [(0x69, 0x10),
   (0x49, 0x30),
   (0x6A, 0x1E), (0x4A, 0x1E),
   (0x6C, 0x06),
   (0x4C, 0x38),
   (0x6E, 0x54),
   (0x4E, 0x37),
   (0x6F, 0x5C),
   (0x4F, 0x3F),
   (0x50, 0x73), (0x70, 0x73)]

/-- Letters q to y of R91. -/
def charRowsQtoY : List (Byte × Byte) :=
  [(0x71, 0x67), (0x51, 0x67),
   (0x72, 0x50), (0x52, 0x50),
   (0x53, 0x6D), (0x73, 0x6D),
   (0x74, 0x78), (0x54, 0x78),
   (0x75, 0x1C),
   (0x55, 0x3E),
   (0x79, 0x6E), (0x59, 0x6E)]

/-- Underscore and dash of R91. -/
def charRowsMarks : List (Byte × Byte) := [(0x5F, 0x08), (0x2D, 0x40)]

/-- CHAR_GLYPH[c] by R91, for a given HEX_GLYPH and a given OVERSCORE_CODE: a hex digit for c in 0..15, the listed glyph,
the overscore at its code, or blank. An OVERSCORE_CODE that R91 gives to another glyph keeps that one (assumption 18). -/
def charDefaultAt (hex : Vector Byte 16) (overscore c : Byte) : Byte :=
  if c.toNat ≤ 15 then hex.toList.getD c.toNat 0x00
  else ((charRowsAtoH ++ charRowsItoP ++ charRowsQtoY ++ charRowsMarks).lookup c).getD
    (if c = overscore then 0x01 else 0x00)

/-- The tables R91 makes of a HEX_GLYPH and an OVERSCORE_CODE. -/
def GlyphRom.ofParams (hex : Vector Byte 16) (overscore : Byte) : GlyphRom where
  hex := hex
  char := ⟨((List.range 128).map fun c => charDefaultAt hex overscore (BitVec.ofNat 8 c)).toArray, by simp⟩

/-- The spec's default tables (R90, R91). -/
def GlyphRom.default : GlyphRom := GlyphRom.ofParams hexDefault Config.overscoreDefault

end Sys2Proof.Machine
end

