-- ==== Sys2Proof/Machine/State.lean ====
section
/-! DEFINITION. The state: the block's record (spec/10_state.md R13), the observation (20_memory.md R44, R45), the
reference peer (R46), what an operation returned (R16, R113), and the host operations still to come (R15).
All of it is plain data. -/

namespace Sys2Proof.Machine

/-- `life` (R13, R17). -/
inductive Life where
  | uninit
  | ready
  | deinit
  deriving DecidableEq, Repr

/-- `dtype` (R13, R18). -/
inductive DisplayType where
  | cathode
  | anode
  deriving DecidableEq, Repr

/-- The shadow register file, 16 bytes (R21). -/
abbrev Shadow := Vector Byte 16

/-- PEER_RAM (R30, R38) as (address, byte) cells, one for each of its 16 addresses, addresses strictly rising. Every byte
has a value from power-on, the PEER_INIT draw (R46, assumption 3); an unlisted address is none of PEER_RAM's and holds no
byte. -/
abbrev Memory := List Host.Cell

/-- The canonical form of PEER_RAM: its addresses are 0, 1, .., 15 in this order. So equal memories are equal lists, and no
entry equals what an unlisted address reads as, since that is no value. -/
def Memory.wf (m : Memory) : Bool := decide (m.map Prod.fst = List.range 16)

/-- PEER_RAM at power-on: the PEER_INIT draw at each address (R46, U11). -/
def Memory.peerInit : Memory := (List.range 16).map fun a => (a, Config.peerInitRam a)

/-- The transaction in progress, as R45 derives it from the pin events: whether STB is low, the bits of the byte being
written, those of the byte being read (bit 0 first), and the items so far. -/
structure Receiver where
  isOpen : Bool
  wrBits : List Level
  rdBits : List Level
  items : List BusItem
  deriving DecidableEq, Repr

/-- No transaction is open. -/
def Receiver.closed : Receiver := { isOpen := false, wrBits := [], rdBits := [], items := [] }

/-- The reference peer (R46): its display memory and its registers. -/
structure Peer where
  ram : Memory
  regs : PeerRegs
  deriving DecidableEq, Repr

/-- Who answers `SampleDIO()` (assumption 4): the bus oracle of R27 (any level), or the reference peer of R49. -/
inductive DioSource where
  | oracle
  | reference
  deriving DecidableEq, Repr

/-- The status type of R16, R112; FAIL is kept and never produced. -/
inductive Status where
  | ok
  | fail
  deriving DecidableEq, Repr

/-- The refusal reasons of R113. -/
inductive Reason where
  | reentrant
  | badWord
  | notReady
  | badType
  | badRange
  deriving DecidableEq, Repr

/-- What the last host operation gave its caller (R16, R60, R108, R113). -/
inductive Report where
  /-- No host operation has been issued. -/
  | nothing
  /-- It returned a status, and the u32 key mask if it was SCAN. -/
  | returned (status : Status) (mask : Option Word)
  /-- It was refused, for the first reason in R114's order. -/
  | refused (reason : Reason)
  deriving DecidableEq, Repr

/-- What comes to the block from outside, one item a step (assumptions 11, 12, 13, 16). -/
inductive Input where
  /-- The host issues a host operation (R15, R59). `overlaps`: while another one of this handle is running (R118). -/
  | call (word : Word) (payload : List Byte) (overlaps : Bool)
  /-- The transport is given one wire command byte to send in a transaction of its own. -/
  | command (b : Byte)
  /-- The environment sets the key matrix (R46). -/
  | keys (k : BitVec 24)
  deriving DecidableEq, Repr

/-- The machine. -/
structure State where
  /-- R17. -/
  life : Life
  /-- R18. -/
  dtype : DisplayType
  /-- R21, R22. -/
  shadow : Shadow
  /-- GLYPH_ROM (R30, R88): the parameters HEX_GLYPH and CHAR_GLYPH of R8, never written (assumption 26). -/
  rom : GlyphRom
  /-- `stb`, `clk`, `dio_dir`, `dio_out` (R13, R20, R24 to R26). -/
  pins : Pins
  /-- The bus trace, oldest event first (R44). -/
  trace : List Event
  /-- The transaction in progress (R45). -/
  rx : Receiver
  /-- The reference peer (R46). -/
  peer : Peer
  /-- Who answers DIO samples (the model's own field, assumption 4). -/
  source : DioSource
  /-- How many free values have been drawn (the model's own field, assumption 4). -/
  draws : Nat
  /-- What the last host operation gave its caller. -/
  report : Report
  /-- The refusal mark (R113): once set it stays. -/
  refusalMark : Bool
  /-- The inputs still to come (the model's own field, assumption 11). -/
  inputs : List Input
  deriving DecidableEq, Repr

/-- The block raises no exception and takes no trap (R111), so no step faults: there is no constructor. -/
inductive Fault where
  deriving DecidableEq, Repr

/-- Why a step has no meaning. -/
inductive Refusal where
  /-- Raised by an arm of `exec` whose instruction has no meaning yet. Safe: the run stops. -/
  | notModelled (mnemonic : String)
  /-- Raised by `step` on a wire command byte that is none of R55's four patterns: such bytes "are never emitted by the
  block and have no meaning in this spec" (R56). Safe: the run stops. Assumption 14. -/
  | reservedCommand (b : Byte)
  deriving DecidableEq, Repr

/-- Power-on of a machine built with the given glyph tables (R8, R29, R124): `life` = UNINIT. The fields R29 leaves
unspecified hold the values of assumption 1; the peer holds PEER_INIT (assumptions 2, 3). No program is placed
(assumption 11). -/
def State.powerOn (rom : GlyphRom) : State where
  life := .uninit
  dtype := .cathode
  shadow := Vector.replicate 16 0
  rom := rom
  pins := { stb := false, clk := false, dioDir := .input, dioOut := false }
  trace := []
  rx := Receiver.closed
  peer := { ram := Memory.peerInit, regs := Config.peerInit }
  source := .oracle
  draws := 0
  report := .nothing
  refusalMark := false
  inputs := []

/-- Power-on with the spec's default glyph tables (R90, R91; assumption 18). -/
def State.reset : State := State.powerOn GlyphRom.default

end Sys2Proof.Machine
end

