-- ==== Sys2Proof/Machine/Peer.lean ====
section
/-! DEFINITION. PEER_RAM's operations (spec/20_memory.md R30, R38), the transaction view's receiver (R45) and the
reference peer (R46-R50). -/

namespace Sys2Proof.Machine

/-! ### PEER_RAM -/

/-- The byte at an address: none outside PEER_RAM's addresses 0..15 (R38). -/
def Memory.read (m : Memory) (a : Nat) : Option Byte :=
  match m with
  | [] => none
  | c :: cs => if c.1 = a then some c.2 else Memory.read cs a

/-- Store one byte, keeping the cells in rising order of address. -/
def Memory.write (m : Memory) (a : Nat) (b : Byte) : Memory :=
  match m with
  | [] => [(a, b)]
  | c :: cs =>
    if a < c.1 then (a, b) :: c :: cs
    else if a = c.1 then (a, b) :: cs
    else c :: Memory.write cs a b

/-! ### Bits and bytes -/

/-- zext_8 of a level (R9). -/
def levelByte (l : Level) : Byte := if l then 1 else 0

/-- The byte whose bit m is the m-th level of the list (R32, R45): least-significant bit first. -/
def byteOfLevels (ls : List Level) : Byte := ls.foldr (fun l acc => (acc <<< 1) ||| levelByte l) 0

/-! ### The receiver (R45) -/

/-- One more written bit; the eighth completes the byte. -/
def Receiver.pushWr (rx : Receiver) (l : Level) : Receiver :=
  let bits := rx.wrBits ++ [l]
  if bits.length = 8 then { rx with wrBits := [], items := rx.items ++ [.wr (byteOfLevels bits)] }
  else { rx with wrBits := bits }

/-- One more read bit; the eighth completes the byte. -/
def Receiver.pushRd (rx : Receiver) (l : Level) : Receiver :=
  let bits := rx.rdBits ++ [l]
  if bits.length = 8 then { rx with rdBits := [], items := rx.items ++ [.rd (byteOfLevels bits)] }
  else { rx with rdBits := bits }

/-- The receiver after one event, `pins` being the pins after it. `Stb(0)` opens a transaction and `Stb(1)` ends it; a
`Clk(1)` while DIO is OUT takes the level driven on DIO, a `DioSample` its result (R45; assumption 20). -/
def Receiver.hear (rx : Receiver) (pins : Pins) (e : Event) : Receiver :=
  match e with
  | .stb false => { Receiver.closed with isOpen := true }
  | .stb true => Receiver.closed
  | .clk true => if rx.isOpen && pins.dioDir == .output then rx.pushWr pins.dioOut else rx
  | .dioSample l => if rx.isOpen then rx.pushRd l else rx
  | .clk false | .dioDir _ | .dioDrive _ | .delay _ | .platInit | .platDeinit => rx

/-! ### Commands (R47) and data (R48) -/

/-- bits [7:6] of a command byte (R47, R51). -/
def kindField (c : Byte) : BitVec 2 := c.extractLsb' 6 2

/-- The written bytes among the items that follow a command. -/
def writtenBytes (items : List BusItem) : List Byte :=
  items.filterMap fun
    | .wr b => some b
    | .rd _ => none

/-- One data byte of an address transaction (R48): stored at `ptr`, which then moves on if `amode` is AUTO. With `ptr` =
16 it goes where PEER_OVERFLOW says (assumption 7). -/
def Peer.store (p : Peer) (d : Byte) : Peer :=
  if h : p.regs.ptr.val < 16 then
    let next : Fin 17 := match p.regs.amode with
      | .auto => ⟨p.regs.ptr.val + 1, by omega⟩
      | .fixed => p.regs.ptr
    { ram := p.ram.write p.regs.ptr.val d, regs := { p.regs with ptr := next } }
  else
    let o := Config.peerOverflow
    { ram := match o.store with
        | some a => p.ram.write a.val d
        | none => p.ram
      regs := { p.regs with ptr := o.ptr } }

/-- The address field of a command as a pointer (R47): b[3:0]. -/
def ptrField (c : Byte) : Fin 17 := ⟨(c.extractLsb' 0 4).toNat, by have := (c.extractLsb' 0 4).isLt; omega⟩

/-- A data command (R47): direction, address mode and test mode from bits 1, 2 and 3. -/
def Peer.dataCommand (p : Peer) (c : Byte) : Peer :=
  { p with regs := { p.regs with
      mode := if c.getLsbD 1 then .read else .write
      amode := if c.getLsbD 2 then .fixed else .auto
      tmode := if c.getLsbD 3 then .test else .normal } }

/-- An address command (R47) and the data bytes after it (R48). -/
def Peer.addrCommand (p : Peer) (c : Byte) (ds : List Byte) : Peer :=
  ds.foldl Peer.store { p with regs := { p.regs with ptr := ptrField c } }

/-- A display-control command (R47): on from bit 3, brightness from bits [2:0]. -/
def Peer.dispCommand (p : Peer) (c : Byte) : Peer :=
  { p with regs := { p.regs with dispOn := c.getLsbD 3, bright := c.extractLsb' 0 3 } }

/-- A transaction takes effect, at STB rising (R47, R50). Its first byte is the command; a kind of 0b00 has no effect,
and bytes after a data or display-control command have none (assumption 21). -/
def Peer.commit (p : Peer) (items : List BusItem) : Peer :=
  match items with
  | .wr c :: rest =>
    match (kindField c).toNat with
    | 1 => p.dataCommand c
    | 2 => p.dispCommand c
    | 3 => p.addrCommand c (writtenBytes rest)
    | _ => p
  | _ => p

/-- The peer hears one event; `rx` is the receiver before it. It acts when STB rises on an open transaction (R50). -/
def Peer.hear (p : Peer) (rx : Receiver) (e : Event) : Peer :=
  match e with
  | .stb true => if rx.isOpen then p.commit rx.items else p
  | .stb false | .clk _ | .dioDir _ | .dioDrive _ | .dioSample _ | .delay _ | .platInit | .platDeinit => p

/-! ### Key reads (R49) -/

/-- K[r][c] (R46), at bit r*8 + c of the key matrix. -/
def keyAt (k : BitVec 24) (r c : Nat) : Bool := k.getLsbD (r * 8 + c)

/-- Read byte j of the reference peer (R49): bit r = K[r][2j], bit r+4 = K[r][2j+1] for r in 0..2, bits 3 and 7 = 0. -/
def keyByte (k : BitVec 24) (j : Nat) : Byte :=
  byteOfLevels [keyAt k 0 (2 * j), keyAt k 1 (2 * j), keyAt k 2 (2 * j), false,
    keyAt k 0 (2 * j + 1), keyAt k 1 (2 * j + 1), keyAt k 2 (2 * j + 1), false]

/-- The level the reference peer drives on DIO (R49): in a transaction whose command is a data command with b[1] = 1, bit
m of read byte j, where j bytes and m bits have been read; nothing past byte 3 (R49, "any value"), nothing otherwise. -/
def Peer.drives (p : Peer) (rx : Receiver) : Option Level :=
  match rx.items with
  | .wr c :: rest =>
    if kindField c = 1 ∧ c.getLsbD 1 = true ∧ rest.length < 4 then
      some ((keyByte p.regs.keys rest.length).getLsbD rx.rdBits.length)
    else none
  | _ => none

end Sys2Proof.Machine
end

