-- ==== Sys2Proof/Machine/Ops.lean ====
section
/-! DEFINITION. The shared operations: SHADOW's primitives (spec/20_memory.md R31), the pin actions (R44), and the bus
transport of 40_bus_transport.md (START, STOP, WRITE_BYTES, READ_BYTES, SEND, XFER). There is no exception to take and
none to return from (60_exceptions.md R111). -/

namespace Sys2Proof.Machine

/-! ### SHADOW (R31) -/

/-- shadow[i] (R9). R31: no rule reads outside 0..15. -/
def Shadow.get (sh : Shadow) (i : Nat) : Byte := sh.toList.getD i 0

/-- shadow[i] <- v (R9). R31: no rule writes outside 0..15. -/
def Shadow.put (sh : Shadow) (i : Nat) (v : Byte) : Shadow := sh.setIfInBounds i v

/-- MemRead(i, n) (R31). -/
def memRead (sh : Shadow) (i n : Nat) : List Byte := (List.range n).map fun k => Shadow.get sh (i + k)

/-- MemWrite(i, n, v) (R31), n being the length of v. -/
def memWrite (sh : Shadow) (i : Nat) (v : List Byte) : Shadow :=
  match v with
  | [] => sh
  | b :: bs => memWrite (Shadow.put sh i b) (i + 1) bs

/-! ### Pin actions (R44) -/

/-- The pins after one event. -/
def pinsAfter (p : Pins) (e : Event) : Pins :=
  match e with
  | .stb l => { p with stb := l }
  | .clk l => { p with clk := l }
  | .dioDir d => { p with dioDir := d }
  | .dioDrive l => { p with dioOut := l }
  | .dioSample _ | .delay _ | .platInit | .platDeinit => p

/-- One action of the block: it changes the pins, appends its event to the trace (R44), and reaches the peer. -/
def act (e : Event) (s : State) : State :=
  { s with
    trace := s.trace ++ [e]
    pins := pinsAfter s.pins e
    rx := s.rx.hear (pinsAfter s.pins e) e
    peer := s.peer.hear s.rx e }

/-- `SampleDIO()` (R27): a draw from the oracle, or the reference peer's level (R49) where it is the oracle and drives the
line (assumption 4). -/
def sampleDio (s : State) : Level × State :=
  match s.source, s.peer.drives s.rx with
  | .reference, some l => (l, s)
  | .reference, none | .oracle, _ => (Config.dioLevel s.trace s.draws, { s with draws := s.draws + 1 })

/-! ### The transport -/

/-- START (R64). -/
def busStart (s : State) : State := act (.stb false) s

/-- STOP (R65). -/
def busStop (s : State) : State := act (.stb true) s

/-- One bit of WRITE_BYTES (R66). -/
def writeBit (s : State) (l : Level) : State :=
  let s := act (.clk false) s
  let s := act (.delay Config.writeHalfUnits) s
  let s := act (.dioDrive l) s
  let s := act (.clk true) s
  act (.delay Config.writeHalfUnits) s

/-- One byte of WRITE_BYTES (R66), bit 0 first. -/
def writeByte (s : State) (b : Byte) : State :=
  (List.range 8).foldl (fun s m => writeBit s (b.getLsbD m)) s

/-- WRITE_BYTES(bs) (R66). -/
def writeBytes (bs : List Byte) (s : State) : State := bs.foldl writeByte (act (.dioDir .output) s)

/-- One bit of READ_BYTES (R67): the level sampled after CLK rises. -/
def readBit (s : State) : Level × State :=
  let s := act (.clk false) s
  let s := act (.delay Config.readHalfUnits) s
  let s := act (.clk true) s
  let (l, s) := sampleDio s
  let s := act (.dioSample l) s
  (l, act (.delay Config.readHalfUnits) s)

/-- `k` more bits of a byte of READ_BYTES, from bit `m` (R67): b <- b | (zext_8(l) << m). -/
def readBits (k m : Nat) (b : Byte) (s : State) : Byte × State :=
  match k with
  | 0 => (b, s)
  | k + 1 =>
    let (l, s) := readBit s
    readBits k (m + 1) (b ||| (levelByte l <<< m)) s

/-- One byte of READ_BYTES (R67), with the inter-byte delay after it. -/
def readByte (s : State) : Byte × State :=
  let (b, s) := readBits 8 0 0x00 s
  (b, act (.delay Config.readInterbyteUnits) s)

/-- `n` bytes, one after the other. -/
def readLoop (n : Nat) (s : State) : List Byte × State :=
  match n with
  | 0 => ([], s)
  | n + 1 =>
    let (b, s) := readByte s
    let (bs, s) := readLoop n s
    (b :: bs, s)

/-- READ_BYTES(n) (R67). -/
def readBytes (n : Nat) (s : State) : List Byte × State :=
  let s := act (.dioDir .input) s
  let s := act (.delay Config.readSettleUnits) s
  readLoop n s

/-- SEND(bs) (R69): one transaction that writes. -/
def send (bs : List Byte) (s : State) : State := busStop (writeBytes bs (busStart s))

/-- XFER(cmd, n) (R69): one transaction that writes a command byte and reads n bytes. -/
def xfer (cmd : Byte) (n : Nat) (s : State) : List Byte × State :=
  let s := busStart s
  let s := writeBytes [cmd] s
  let (r, s) := readBytes n s
  (r, busStop s)

end Sys2Proof.Machine
end

