-- ==== Sys2Proof/Machine/Flags.lean ====
section
/-! DEFINITION. The block has no flags (spec/10_state.md R16). What an operation leaves for its caller is its status
(R16, 60_exceptions.md R112), and the model's refusal mark (R113). Both are computed here. -/

namespace Sys2Proof.Machine

/-- `refuse(reason)` (R9, R113): no bus event, no state but the mark and the reason reported (assumptions 9, 10). -/
def refuse (r : Reason) (s : State) : State := { s with refusalMark := true, report := .refused r }

/-- `return OK` (R112), with SCAN's mask where there is one (R108). -/
def returnOk (mask : Option Word) (s : State) : State := { s with report := .returned .ok mask }

/-- `if life != READY: refuse(NotReady)`, then the rest of the operation (R17). -/
def whenReady (s : State) (rest : Host.Outcome State Fault Refusal) : Host.Outcome State Fault Refusal :=
  if s.life = .ready then rest else .next (refuse .notReady s)

end Sys2Proof.Machine
end

