-- ==== Sys2Proof/Machine/Operands.lean ====
section
/-! DEFINITION. The operand forms of spec/30_encoding.md R60 and their preconditions (R61). Every operand is taken
zero-extended from its field; none is scaled or sign-extended. -/

namespace Sys2Proof.Machine

/-- The display-type operand (R60): 0x00 CATHODE, 0x01 ANODE, no other value. -/
def displayType (t : Byte) : Option DisplayType :=
  if t = 0x00 then some .cathode else if t = 0x01 then some .anode else none

/-- The on-flag operand (R60): 0 off, any other value on. -/
def onFlag (b : Byte) : Bool := decide (b ≠ 0)

/-- R61: P <= 15, P + N <= 16, and the payload holds exactly N bytes. Positions are exact naturals (R10). -/
def inRange (p n : Byte) (payload : List Byte) : Bool :=
  decide (p.toNat ≤ 15 ∧ p.toNat + n.toNat ≤ 16 ∧ payload.length = n.toNat)

/-- The start address of a display write as ADDR takes it (R74): a[3:0]. -/
def startAddress (p : Byte) : BitVec 4 := p.extractLsb' 0 4

end Sys2Proof.Machine
end

