-- ==== Sys2Proof/Machine/CommandEncoder.lean ====
section
/-! DEFINITION. spec/41_command_encoder.md: the four wire commands (R72-R75), each as the transaction that carries it and
nothing else (assumption 13), and CONFIG_DISPLAY (R76). What the peer makes of a command is R47, committed when STB
rises (R50). -/

namespace Sys2Proof.Machine

/-- DATA_WRITE (R72): the transaction {Wr 0x40}. -/
def execDataWrite (s : State) : Host.Outcome State Fault Refusal := .next (send [cmdDataWrite] s)

/-- DATA_READ (R73): the transaction {Wr 0x42}. -/
def execDataRead (s : State) : Host.Outcome State Fault Refusal := .next (send [cmdDataRead] s)

/-- ADDR_SET (R74): the transaction {Wr 0xC0|a}. -/
def execAddrSet (a : BitVec 4) (s : State) : Host.Outcome State Fault Refusal := .next (send [cmdAddr a] s)

/-- DISP_CTRL (R75): the transaction {Wr DISP(br, on)}. -/
def execDispCtrl (on : Bool) (br : BitVec 3) (s : State) : Host.Outcome State Fault Refusal :=
  .next (send [cmdDisp (br.setWidth 8) on] s)

/-- CONFIG_DISPLAY (R76). -/
def execConfig (br on : Byte) (s : State) : Host.Outcome State Fault Refusal :=
  whenReady s (.next (returnOk none (send [cmdDisp br (onFlag on)] s)))

end Sys2Proof.Machine
end

