-- ==== Sys2Proof/Machine/Display.lean ====
section
/-! DEFINITION. spec/42_display_register.md: DISPLAY_WRITE (R77), the cathode pass-through (R78), ANODE_UPDATE (R79, R80),
the anode rewrite (R81), SET_MULTI (R82) and SET_SINGLE (R83). -/

namespace Sys2Proof.Machine

/-- DISPLAY_WRITE(P, gs) (R77): two transactions. -/
def displayWrite (a : BitVec 4) (gs : List Byte) (s : State) : State :=
  send (cmdAddr a :: gs) (send [cmdDataWrite] s)

/-- One lane of ANODE_UPDATE (R79): shadow[i] <- (shadow[i] & ~(0x01 << b)) | (zext_8(l) << b). -/
def laneUpdate (sh : Shadow) (i b : Nat) (l : Level) : Shadow :=
  Shadow.put sh i ((Shadow.get sh i &&& ~~~((0x01 : Byte) <<< b)) ||| (levelByte l <<< b))

/-- ANODE_UPDATE(p, g) (R79): glyph bit k to lane 2k, bit p, for p in 0..7; to lane 2k+1, bit p-8, for p in 8..9; no
effect for p >= 10 (R80). -/
def anodeUpdate (sh : Shadow) (p : Nat) (g : Byte) : Shadow :=
  if p ≤ 7 then (List.range 8).foldl (fun sh k => laneUpdate sh (2 * k) p (g.getLsbD k)) sh
  else if p ≤ 9 then (List.range 8).foldl (fun sh k => laneUpdate sh (2 * k + 1) (p - 8) (g.getLsbD k)) sh
  else sh

/-- The update loop of SETM_ANODE (R81): ANODE_UPDATE(P + j, G[j]) for j = 0, 1, ... -/
def anodeUpdates (sh : Shadow) (p : Nat) (gs : List Byte) : Shadow :=
  match gs with
  | [] => sh
  | g :: gs => anodeUpdates (anodeUpdate sh p g) (p + 1) gs

/-- SETM_CATHODE (R78). -/
def setCathode (p : Byte) (gs : List Byte) (s : State) : State := displayWrite (startAddress p) gs s

/-- SETM_ANODE (R81): the whole shadow is rewritten, always 16 bytes from address 0. -/
def setAnode (p : Byte) (gs : List Byte) (s : State) : State :=
  let s := { s with shadow := anodeUpdates s.shadow p.toNat gs }
  displayWrite 0 (memRead s.shadow 0 16) s

/-- SET_MULTI(P, N, G) (R82). -/
def setMulti (p n : Byte) (gs : List Byte) (s : State) : Host.Outcome State Fault Refusal :=
  whenReady s
    (if inRange p n gs then
      .next (returnOk none (match s.dtype with
        | .cathode => setCathode p gs s
        | .anode => setAnode p gs s))
    else .next (refuse .badRange s))

/-- SET_MULTI (R82). -/
def execSetm (p n : Byte) (payload : List Byte) (s : State) : Host.Outcome State Fault Refusal :=
  setMulti p n payload s

/-- SET_SINGLE (R83). -/
def execSets (p g : Byte) (s : State) : Host.Outcome State Fault Refusal := setMulti p 1 [g] s

end Sys2Proof.Machine
end

