-- ==== Sys2Proof/Machine/GlyphRom.lean ====
section
/-! DEFINITION. spec/43_glyph_rom.md: the encoders HEXGLYPH and CHARGLYPH over the machine's own tables (R93-R96), and the
four operations that use them (R98-R101). -/

namespace Sys2Proof.Machine

/-- The decimal-point flag of an input value (R93). -/
def dpFlag (v : Byte) : Byte := v &&& 0x80

/-- The lookup key of an input value (R93). -/
def glyphKey (v : Byte) : Byte := v &&& 0x7F

/-- HEXGLYPH(v) (R94). -/
def hexGlyph (rom : GlyphRom) (v : Byte) : Byte :=
  (if (glyphKey v).toNat ≤ 15 then rom.hexAt (glyphKey v).toNat else 0x00) ||| dpFlag v

/-- CHARGLYPH(v) (R95). -/
def charGlyph (rom : GlyphRom) (v : Byte) : Byte := rom.charAt (glyphKey v).toNat ||| dpFlag v

/-- SET_MULTI_HEX and SET_MULTI_CHAR (R98, R100): the checks, every value resolved, then SET_MULTI. -/
def setMultiGlyphs (glyph : Byte → Byte) (p n : Byte) (vs : List Byte) (s : State) :
    Host.Outcome State Fault Refusal :=
  whenReady s (if inRange p n vs then setMulti p n (vs.map glyph) s else .next (refuse .badRange s))

/-- SET_MULTI_HEX (R98). -/
def execSetmHex (p n : Byte) (payload : List Byte) (s : State) : Host.Outcome State Fault Refusal :=
  setMultiGlyphs (hexGlyph s.rom) p n payload s

/-- SET_SINGLE_HEX (R99). -/
def execSetsHex (p v : Byte) (s : State) : Host.Outcome State Fault Refusal := setMultiGlyphs (hexGlyph s.rom) p 1 [v] s

/-- SET_MULTI_CHAR (R100). -/
def execSetmChar (p n : Byte) (payload : List Byte) (s : State) : Host.Outcome State Fault Refusal :=
  setMultiGlyphs (charGlyph s.rom) p n payload s

/-- SET_SINGLE_CHAR (R101). -/
def execSetsChar (p v : Byte) (s : State) : Host.Outcome State Fault Refusal := setMultiGlyphs (charGlyph s.rom) p 1 [v] s

end Sys2Proof.Machine
end

