-- ==== Sys2Proof/Machine/KeyScan.lean ====
section
/-! DEFINITION. spec/44_key_scan.md: KEYDECODE in its closed form (R103) and as the source's procedure (R104), and
SCAN_KEYS (R108). -/

namespace Sys2Proof.Machine

/-- B[j] of the raw bytes (R102). -/
def rawByte (bs : List Byte) (j : Nat) : Byte := bs.getD j 0

/-- zext_32 of a bit (R9). -/
def bitWord (l : Bool) : Word := if l then 1 else 0

/-- mask[i] <- l, on a mask whose bit i is still 0. -/
def maskBit (i : Nat) (l : Bool) (mask : Word) : Word := mask ||| (bitWord l <<< i)

/-- KEYDECODE(B[0..3]) (R103): mask bit r*8 + 2j from the lower nibble, r*8 + 2j + 1 from the upper. -/
def keyDecode (bs : List Byte) : Word :=
  (List.range 3).foldl (fun mask r =>
    (List.range 4).foldl (fun mask j =>
      maskBit (r * 8 + 2 * j + 1) ((rawByte bs j).getLsbD (r + 4))
        (maskBit (r * 8 + 2 * j) ((rawByte bs j).getLsbD r) mask)) mask) 0

/-- One row of KEYDECODE_PROC (R104): the raw bytes from byte 3 down to byte 0, upper nibble first. -/
def keyRow (bs : List Byte) (r : Nat) : Word :=
  [3, 2, 1, 0].foldl (fun acc j =>
    (((acc <<< 1) ||| bitWord ((rawByte bs j).getLsbD (r + 4))) <<< 1) ||| bitWord ((rawByte bs j).getLsbD r)) 0

/-- KEYDECODE_PROC(B[0..3]) (R104). -/
def keyDecodeProc (bs : List Byte) : Word :=
  (List.range 3).foldl (fun mask r => mask ||| (keyRow bs r <<< (8 * r))) 0

/-- The mask SCAN returns: KEYDECODE's low 24 bits under bits 31..24 of any value (R105, assumption 5). -/
def scanMask (high : BitVec 8) (bs : List Byte) : Word := high ++ (keyDecode bs).setWidth 24

/-- SCAN_KEYS (R108): one transaction {Wr 0x42, Rd x 4}, then the decode. -/
def scanKeys (s : State) : State :=
  let (bs, s) := xfer cmdDataRead 4 s
  let s' := { s with draws := s.draws + 1 }
  returnOk (some (scanMask (Config.maskHigh s.draws) bs)) s'

/-- SCAN_KEYS (R108). -/
def execScan (s : State) : Host.Outcome State Fault Refusal := whenReady s (.next (scanKeys s))

end Sys2Proof.Machine
end

