-- ==== Sys2Proof/Machine/Lifecycle.lean ====
section
/-! DEFINITION. spec/45_lifecycle.md: INITIALIZE (R109) and DEINITIALIZE (R110). -/

namespace Sys2Proof.Machine

/-- INITIALIZE with an admitted display type (R109): PlatInit, STB, CLK, DIO's direction and level in that order, then
`dtype`, `shadow` and `life`. -/
def bringUp (d : DisplayType) (s : State) : State :=
  let s := act .platInit s
  let s := act (.stb true) s
  let s := act (.clk true) s
  let s := act (.dioDir .output) s
  let s := act (.dioDrive true) s
  returnOk none { s with dtype := d, shadow := Vector.replicate 16 0x00, life := .ready }

/-- INITIALIZE (R109): admitted in every `life` state; a display type other than 0 or 1 is `BadType`. -/
def execInit (t : Byte) (s : State) : Host.Outcome State Fault Refusal :=
  match displayType t with
  | some d => .next (bringUp d s)
  | none => .next (refuse .badType s)

/-- DEINITIALIZE on a READY handle (R110): the pins take INERT (no pin event of their own, assumption 23), then
PlatDeinit. -/
def release (s : State) : State :=
  let s := { s with pins := Config.inert }
  let s := act .platDeinit s
  returnOk none { s with life := .deinit }

/-- DEINITIALIZE (R110). -/
def execDeinit (s : State) : Host.Outcome State Fault Refusal := whenReady s (.next (release s))

end Sys2Proof.Machine
end

