-- ==== Sys2Proof/Machine/Dispatch.lean ====
section
/-! DEFINITION. One arm per constructor of Instr, each one direct call of its meaning. -/

namespace Sys2Proof.Machine

def exec (i : Instr) (s : State) : Host.Outcome State Fault Refusal :=
  match i with
  -- wire commands (spec/41_command_encoder.md)
  | .dataWrite => Sys2Proof.Machine.execDataWrite s
  | .dataRead => Sys2Proof.Machine.execDataRead s
  | .addrSet a => Sys2Proof.Machine.execAddrSet a s
  | .dispCtrl on br => Sys2Proof.Machine.execDispCtrl on br s
  -- host operations (spec/30_encoding.md R58)
  | .init t => Sys2Proof.Machine.execInit t s
  | .deinit => Sys2Proof.Machine.execDeinit s
  | .config br on => Sys2Proof.Machine.execConfig br on s
  | .sets p g => Sys2Proof.Machine.execSets p g s
  | .setm p n payload => Sys2Proof.Machine.execSetm p n payload s
  | .setsHex p v => Sys2Proof.Machine.execSetsHex p v s
  | .setmHex p n payload => Sys2Proof.Machine.execSetmHex p n payload s
  | .setsChar p v => Sys2Proof.Machine.execSetsChar p v s
  | .setmChar p n payload => Sys2Proof.Machine.execSetmChar p n payload s
  | .scan => Sys2Proof.Machine.execScan s

end Sys2Proof.Machine
end

