-- ==== Sys2Proof/Machine/Fetch.lean ====
section
/-! DEFINITION. What the machine does next: the block has no program counter and fetches no instructions
(spec/10_state.md R15); the host's operations come in the order it issues them. -/

namespace Sys2Proof.Machine

/-- The next thing to do, with the state it is done in. -/
inductive Fetched where
  /-- Run an instruction. -/
  | run (i : Instr) (s : State)
  /-- Nothing is left to run; this is the next state. -/
  | done (s : State)
  /-- A wire command byte with no meaning (R56). -/
  | reserved (b : Byte)
  deriving Repr

/-- One input, `s` being the state without it. A host operation issued while another runs is refused `Reentrant` before
its word is looked at; a word that does not decode is refused `BadWord` (R113, R114). -/
def issue (x : Input) (s : State) : Fetched :=
  match x with
  | .call w payload overlaps =>
    if overlaps then .done (refuse .reentrant s)
    else match decodeHost w payload with
      | .ok i => .run i s
      | .error _ => .done (refuse .badWord s)
  | .command b =>
    match decodeWire b with
    | .ok i => .run i s
    | .error _ => .reserved b
  | .keys k => .done { s with peer := { s.peer with regs := { s.peer.regs with keys := k } } }

/-- The next input, in the order issued; with none left the block is idle, its pins held (R123). -/
def fetch (s : State) : Fetched :=
  match s.inputs with
  | [] => .done s
  | x :: rest => issue x { s with inputs := rest }

/-- A table word as an input (assumption 25). -/
def tableInput (nbits w : Nat) : Input :=
  match tableEncoded nbits w with
  | .wire b => .command b
  | .host w payload => .call w payload false

end Sys2Proof.Machine
end

