-- ==== Sys2Proof/Machine/Step.lean ====
section
/-! DEFINITION. One step: the next input (spec/10_state.md R15), run to completion. -/

namespace Sys2Proof.Machine

/-- One host operation, wire command or environment input, whole (R6, R15); nothing, when there is none (R123). -/
def step (s : State) : Host.Outcome State Fault Refusal :=
  match fetch s with
  | .run i s' => exec i s'
  | .done s' => .next s'
  | .reserved b => .refused (.reservedCommand b)

/-- `s` with a table word as the very next input (assumptions 11, 25). -/
def State.withFetchWord (s : State) (nbits w : Nat) : State := { s with inputs := tableInput nbits w :: s.inputs }

end Sys2Proof.Machine
end

