-- ==== Sys2Proof/Safety.lean ====
section
/-! DEFINITION. The terms in which claims speak of a run: the events the rules prescribe (spec/40_bus_transport.md), the
transaction view (20_memory.md R45), framing (R69, R71, R130), delay counts (R127, R128, R134), the reading of a position
in the shadow (42_display_register.md R86), and the invariant of the machine. -/

namespace Sys2Proof.Safety

open Sys2Proof.Machine

/-! ### Events the rules prescribe -/

/-- The five events of one written bit (R66). -/
def writeBitEvents (l : Level) : List Event := [.clk false, .delay 1, .dioDrive l, .clk true, .delay 1]

/-- The bits of a byte, bit 0 first (R32). -/
def bitsOf (b : Byte) : List Level :=
  [b.getLsbD 0, b.getLsbD 1, b.getLsbD 2, b.getLsbD 3, b.getLsbD 4, b.getLsbD 5, b.getLsbD 6, b.getLsbD 7]

/-- The events of one written byte (R66). -/
def writeByteEvents (b : Byte) : List Event := (bitsOf b).flatMap writeBitEvents

/-- The events of WRITE_BYTES(bs) (R66). -/
def writeEvents (bs : List Byte) : List Event := .dioDir .output :: bs.flatMap writeByteEvents

/-- The five events of one bit read (R67). -/
def readBitEvents (l : Level) : List Event := [.clk false, .delay 1, .clk true, .dioSample l, .delay 1]

/-- The events of one byte read (R67), with the inter-byte delay. -/
def readByteEvents (b : Byte) : List Event := (bitsOf b).flatMap readBitEvents ++ [.delay 2]

/-- The events of READ_BYTES that returns `bs` (R67). -/
def readEvents (bs : List Byte) : List Event := .dioDir .input :: .delay 5 :: bs.flatMap readByteEvents

/-- The events of SEND(bs) (R69). -/
def sendEvents (bs : List Byte) : List Event := .stb false :: (writeEvents bs ++ [.stb true])

/-- The events of XFER(cmd, n) that returns `bs` (R69). -/
def xferEvents (cmd : Byte) (bs : List Byte) : List Event :=
  .stb false :: (writeEvents [cmd] ++ readEvents bs ++ [.stb true])

/-- The events of INITIALIZE (R109). -/
def initEvents : List Event := [.platInit, .stb true, .clk true, .dioDir .output, .dioDrive true]

/-- The level DIO holds after WRITE_BYTES(bs) (R66): bit 7 of the last byte, or as before. -/
def lastLevel (old : Level) (bs : List Byte) : Level := (bs.getLast?.map fun b => b.getLsbD 7).getD old

/-! ### The transaction view (R45) -/

/-- The finished transactions of a list of events, `pins` and `rx` being the pins and the receiver before it. -/
def transactionsFrom (pins : Pins) (rx : Receiver) : List Event → List (List BusItem)
  | [] => []
  | e :: es =>
    let pins' := pinsAfter pins e
    let later := transactionsFrom pins' (rx.hear pins' e) es
    if e = .stb true ∧ rx.isOpen = true then rx.items :: later else later

/-- The transactions of a list of events that begins outside any transaction. -/
def transactionsOf (pins : Pins) (es : List Event) : List (List BusItem) := transactionsFrom pins Receiver.closed es

/-- The items of a written transaction. -/
def written (bs : List Byte) : List BusItem := bs.map .wr

/-- The events a step added to the trace (R44). -/
def newEvents (s t : State) : List Event := t.trace.drop s.trace.length

/-- The four wire command patterns of R55: DATA_WRITE, DATA_READ, ADDR_SET a, DISP_CTRL d,b. -/
def emittedCommand (c : Byte) : Bool :=
  c == 0x40 || c == 0x42 || (decide (0xC0 ≤ c.toNat) && decide (c.toNat ≤ 0xCF)) ||
    (decide (0x80 ≤ c.toNat) && decide (c.toNat ≤ 0x8F))

/-- The shapes of a transaction the block emits (R35, R55, R57): a command alone, an address command and at most 16 data
bytes, or the read command and four bytes read. -/
def emittedTransaction : List BusItem → Bool
  | [.wr c] => emittedCommand c
  | [.wr c, .rd _, .rd _, .rd _, .rd _] => c == 0x42
  | .wr c :: rest =>
    decide (0xC0 ≤ c.toNat) && decide (c.toNat ≤ 0xCF) && decide (rest.length ≤ 16) &&
      rest.all fun
        | .wr _ => true
        | .rd _ => false
  | _ => false

/-! ### Framing (R69, R71, R130) -/

/-- Every `Stb(0)` is followed by one `Stb(1)`, and CLK and DIO change, and DIO is sampled, only between the two. -/
def bracketedFrom (inside : Bool) : List Event → Bool
  | [] => !inside
  | .stb false :: es => !inside && bracketedFrom true es
  | .stb true :: es => inside && bracketedFrom false es
  | .clk _ :: es | .dioDir _ :: es | .dioDrive _ :: es | .dioSample _ :: es => inside && bracketedFrom inside es
  | .delay _ :: es | .platInit :: es | .platDeinit :: es => bracketedFrom inside es

/-- A list of events that begins and ends outside a transaction and keeps the framing. -/
def bracketed (es : List Event) : Bool := bracketedFrom false es

/-! ### Delay counts (R127, R128, R134) -/

/-- The delay units of a list of events (R134). -/
def delayUnits : List Event → Nat
  | [] => 0
  | .delay n :: es => n + delayUnits es
  | .stb _ :: es | .clk _ :: es | .dioDir _ :: es | .dioDrive _ :: es | .dioSample _ :: es | .platInit :: es
  | .platDeinit :: es => delayUnits es

/-- The delay units in each CLK phase that follows a CLK event (R128); `since`: those counted since the last one. -/
def clkPhasesFrom (since : Option Nat) : List Event → List Nat
  | [] => since.toList
  | .clk _ :: es => since.toList ++ clkPhasesFrom (some 0) es
  | .delay n :: es => clkPhasesFrom (since.map (· + n)) es
  | .stb _ :: es | .dioDir _ :: es | .dioDrive _ :: es | .dioSample _ :: es | .platInit :: es | .platDeinit :: es =>
    clkPhasesFrom since es

/-- The delay units in each CLK phase of a list of events. -/
def clkPhases (es : List Event) : List Nat := clkPhasesFrom none es

/-- The delay units between each switch of DIO to input and the first CLK falling edge after it (R127). -/
def readSettlesFrom (since : Option Nat) : List Event → List Nat
  | [] => []
  | .dioDir .input :: es => readSettlesFrom (some 0) es
  | .clk false :: es => since.toList ++ readSettlesFrom none es
  | .delay n :: es => readSettlesFrom (since.map (· + n)) es
  | .clk true :: es | .stb _ :: es | .dioDir .output :: es | .dioDrive _ :: es | .dioSample _ :: es | .platInit :: es
  | .platDeinit :: es => readSettlesFrom since es

/-- The settle delays of a list of events. -/
def readSettles (es : List Event) : List Nat := readSettlesFrom none es

/-- A platform's T_UNIT meets a peer's PEER_TWAIT and PEER_MIN_HALF, all in microseconds (R127, R128, D8): the premise of a
timing claim. -/
def TimingMet (tUnit peerTwait peerMinHalf : Nat) : Prop := peerTwait ≤ 5 * tUnit ∧ peerMinHalf ≤ tUnit

/-! ### The display -/

/-- The glyph at a position as it is read back from the shadow (R86). -/
def positionGlyph (sh : Shadow) (p : Nat) : Byte :=
  byteOfLevels ((List.range 8).map fun k =>
    if p ≤ 7 then (Shadow.get sh (2 * k)).getLsbD p else (Shadow.get sh (2 * k + 1)).getLsbD (p - 8))

/-- Whether bit b of lane i is a bit of position p (R85): bit p of the even lanes for p <= 7, bit p-8 of the odd lanes for
p in 8..9, none for p >= 10. -/
def belongsTo (p i b : Nat) : Bool :=
  if p ≤ 7 then i % 2 == 0 && b == p else if p ≤ 9 then i % 2 == 1 && b == p - 8 else false

/-- The glyph last written at position p by a list of updates (R86), 0x00 if none. -/
def lastWritten (p : Nat) : List (Nat × Byte) → Byte
  | [] => 0x00
  | u :: us => if us.any (fun v => v.1 == p) then lastWritten p us else if u.1 = p then u.2 else 0x00

/-- The codes above 15 that R91's table gives a glyph of its own, but for the overscore's, which is a parameter: the letters,
upper case then lower case, underscore and dash. -/
def listedCodes : List Byte :=
  [0x41, 0x43, 0x44, 0x45, 0x46, 0x47, 0x48, 0x49, 0x4A, 0x4C, 0x4E, 0x4F, 0x50, 0x51, 0x52, 0x53, 0x54, 0x55, 0x59] ++
  [0x61, 0x62, 0x63, 0x64, 0x65, 0x66, 0x67, 0x68, 0x69, 0x6A, 0x6C, 0x6E, 0x6F, 0x70, 0x71, 0x72, 0x73, 0x74, 0x75,
    0x79] ++ [0x5F, 0x2D]

/-! ### What an operation leaves -/

/-- A refused operation (R113): no bus event, no state but the mark and the reason reported. -/
def refusedState (s : State) (r : Reason) : State := { s with refusalMark := true, report := .refused r }

/-- The six operations of the set-position family (R58). -/
def isSetOp : Instr → Bool
  | .sets _ _ | .setm _ _ _ | .setsHex _ _ | .setmHex _ _ _ | .setsChar _ _ | .setmChar _ _ _ => true
  | .dataWrite | .dataRead | .addrSet _ | .dispCtrl _ _ | .init _ | .deinit | .config _ _ | .scan => false

/-- INITIALIZE, with any display type. -/
def isInit : Instr → Bool
  | .init _ => true
  | .dataWrite | .dataRead | .addrSet _ | .dispCtrl _ _ | .deinit | .config _ _ | .sets _ _ | .setm _ _ _
  | .setsHex _ _ | .setmHex _ _ _ | .setsChar _ _ | .setmChar _ _ _ | .scan => false

/-- One transaction {Wr c} has gone from `s` to `t` (R69): its events, the pins, the peer's registers given, nothing else. -/
def CommandSent (s t : State) (c : Byte) (regs : PeerRegs) : Prop :=
  t = { s with
    trace := s.trace ++ sendEvents [c]
    pins := { stb := true, clk := true, dioDir := .output, dioOut := c.getLsbD 7 }
    rx := Receiver.closed
    peer := { s.peer with regs := regs } }

/-- DISPLAY_WRITE(P, gs) has run from `s` to `t` and returned OK (R77, R48): the two transactions' events, the pins, `sh`
in the shadow, gs in PEER_RAM from address P up, every other address as before, and nothing else. -/
def DisplayWritten (s t : State) (p : Byte) (gs : List Byte) (sh : Shadow) : Prop :=
  t = { s with
    shadow := sh
    trace := s.trace ++ (sendEvents [0x40] ++ sendEvents ((0xC0 ||| p) :: gs))
    pins := { stb := true, clk := true, dioDir := .output, dioOut := lastLevel true gs }
    rx := Receiver.closed
    report := .returned .ok none
    peer := t.peer } ∧
  t.peer.regs =
    { s.peer.regs with mode := .write, amode := .auto, tmode := .normal, ptr := t.peer.regs.ptr } ∧
  t.peer.regs.ptr.val = p.toNat + gs.length ∧
  ∀ a, t.peer.ram.read a =
    if p.toNat ≤ a ∧ a < p.toNat + gs.length then gs[a - p.toNat]? else s.peer.ram.read a

/-- SET_MULTI of the glyphs `gs` at position P has run (R82): the cathode path (R78) or the anode path (R81). -/
def SetDone (s t : State) (p : Byte) (gs : List Byte) : Prop :=
  (s.dtype = .cathode → DisplayWritten s t p gs s.shadow) ∧
  (s.dtype = .anode →
    let sh := anodeUpdates s.shadow p.toNat gs
    DisplayWritten s t 0 ((List.range 16).map (Shadow.get sh)) sh)

/-- The reason R113 and R114 give for a host operation, in R114's order; none when it is admitted. The word's fields are
R59's: OP = bits [3:0], A = [15:8], B = [23:16]. A payload given to an operation that takes none is assumption 15. -/
def refusalReason (life : Life) (w : Word) (payload : List Byte) (overlaps : Bool) : Option Reason :=
  let op := w.toNat % 16
  let a := w.toNat / 256 % 256
  let b := w.toNat / 65536 % 256
  let single := op = 3 ∨ op = 5 ∨ op = 7
  let multi := op = 4 ∨ op = 6 ∨ op = 8
  if overlaps then some .reentrant
  else if w.toNat / 16 % 16 ≠ 0 ∨ w.toNat / 16777216 ≠ 0 ∨ 10 ≤ op ∨ (op = 0 ∧ b ≠ 0) ∨
      ((op = 1 ∨ op = 9) ∧ (a ≠ 0 ∨ b ≠ 0)) ∨ (payload ≠ [] ∧ ¬ multi) then some .badWord
  else if op ≠ 0 ∧ life ≠ .ready then some .notReady
  else if op = 0 ∧ 2 ≤ a then some .badType
  else if (single ∧ 16 ≤ a) ∨ (multi ∧ (16 ≤ a ∨ 16 < a + b ∨ payload.length ≠ b)) then some .badRange
  else none

/-! ### The invariant -/

/-- What every step keeps, from any state (R16, R21, R22, R50, R71, R112, R113). -/
structure Inv (s : State) : Prop where
  /-- Between steps no transaction is open (R69). -/
  idle : s.rx = Receiver.closed
  /-- On a READY handle STB and CLK are high between transactions (R71). -/
  pinsHigh : s.life = .ready → s.pins.stb = true ∧ s.pins.clk = true
  /-- Bits 2..7 of the odd lanes stay 0 after INITIALIZE (R22, D15). -/
  oddLanes : s.life ≠ .uninit → ∀ k, k < 8 → ∀ b, 2 ≤ b → (Shadow.get s.shadow (2 * k + 1)).getLsbD b = false
  /-- The cathode path leaves the shadow at zero (R21). -/
  cathodeZero : s.life ≠ .uninit → s.dtype = .cathode → s.shadow = Vector.replicate 16 0
  /-- PEER_RAM is in canonical form. -/
  ramCanonical : s.peer.ram.wf = true
  /-- FAIL is never produced (R112). -/
  neverFail : ∀ m, s.report ≠ .returned .fail m
  /-- A refusal leaves the mark set (R113). -/
  marked : ∀ r, s.report = .refused r → s.refusalMark = true

end Sys2Proof.Safety
end

