-- ==== Sys2Proof/Certificates/Slice0/Obligations.lean ====
section
/-! DEFINITION. The statements, for the provers. Each docstring names the rule it formalises. Where a clause rests on a
decision the spec marks as its own (D<n>), on general knowledge the spec marks so, or on an entry of the assumption log,
the docstring says so. -/

open Sys2Proof Sys2Proof.Machine Sys2Proof.Safety

/-! ### Encoding (spec/30_encoding.md) -/

/-- Decoding an encoded instruction gives it back, every operand at every value (R52-R55, R59, R60; the host word is the
spec's own, D2, and the flag values general knowledge, D9). -/
def Obligations.DecodeOfEncode : Prop :=
  ∀ i : Instr, decode (encode i) = .ok i

/-- What decodes has one spelling: encoding the instruction gives the same words (D2, D9; assumption 15 for the payload). -/
def Obligations.EncodeOfDecode : Prop :=
  ∀ (e : Encoded) (i : Instr), decode e = .ok i → encode i = e

/-- R63's worked words, as the encoder gives them and the decoder reads them, and the byte `CONFIG 12, 1` emits (D2, D9). -/
def Obligations.WorkedWords : Prop :=
  encode (.init 0x01) = .host 0x00000100 [] ∧
  encode (.config 12 1) = .host 0x00010C02 [] ∧ cmdDisp 12 true = 0x8C ∧
  encode (.setmHex 0 4 [0x01, 0x02, 0x03, 0x84]) = .host 0x00040006 [0x01, 0x02, 0x03, 0x84] ∧
  encode .scan = .host 0x00000009 [] ∧
  decode (.host 0x00000100 []) = .ok (.init 0x01) ∧
  decode (.host 0x00010C02 []) = .ok (.config 12 1) ∧
  decode (.host 0x00040006 [0x01, 0x02, 0x03, 0x84]) = .ok (.setmHex 0 4 [0x01, 0x02, 0x03, 0x84]) ∧
  decode (.host 0x00000009 []) = .ok .scan ∧
  decode (.wire 0x40) = .ok .dataWrite ∧ decode (.wire 0x42) = .ok .dataRead ∧
  decode (.wire 0xC5) = .ok (.addrSet 5) ∧ decode (.wire 0x8F) = .ok (.dispCtrl true 7)

/-- A wire byte decodes exactly when it is one of R55's patterns; every byte of R56 is refused (D9). -/
def Obligations.WireBytesDecoded : Prop :=
  ∀ b : Byte, (∃ i, decode (.wire b) = .ok i) ↔ emittedCommand b = true

/-! ### The step -/

/-- The next host operation runs when its word decodes: the step is `exec` of it, the call taken off `inputs` and nothing
else around it (R15; assumption 11). -/
def Obligations.StepRunsHostOperation : Prop :=
  ∀ (s : State) (w : Word) (payload : List Byte) (rest : List Input) (i : Instr),
    s.inputs = .call w payload false :: rest → decode (.host w payload) = .ok i →
    step s = exec i { s with inputs := rest }

/-- The same for a wire command given to the transport (assumption 13). -/
def Obligations.StepRunsWireCommand : Prop :=
  ∀ (s : State) (b : Byte) (rest : List Input) (i : Instr),
    s.inputs = .command b :: rest → decode (.wire b) = .ok i →
    step s = exec i { s with inputs := rest }

/-- With nothing issued the block is idle, its pins held (R123); the environment's key matrix is taken as it comes (R46;
assumptions 11, 16). -/
def Obligations.IdleAndKeyInput : Prop :=
  ∀ s : State,
    (s.inputs = [] → step s = .next s) ∧
    ∀ k rest, s.inputs = .keys k :: rest →
      step s = .next { s with
        inputs := rest, peer := { s.peer with regs := { s.peer.regs with keys := k } } }

/-- No instruction faults or is refused by `exec`, in any state (R70, R111). -/
def Obligations.ExecAlwaysCompletes : Prop :=
  ∀ (i : Instr) (s : State), ∃ t, exec i s = .next t

/-- A step answers a next state, but for a wire command byte outside R55's patterns, which R56 gives no meaning
(assumption 14). -/
def Obligations.StepStopsOnlyOnReservedBytes : Prop :=
  ∀ s : State,
    (∃ t, step s = .next t) ∨
    ∃ b rest, s.inputs = .command b :: rest ∧ emittedCommand b = false ∧ step s = .refused (.reservedCommand b)

/-- The trace only grows: a step appends events (R40, R44). -/
def Obligations.TraceOnlyGrows : Prop :=
  ∀ s t : State, step s = .next t → t.trace = s.trace ++ newEvents s t

/-! ### Refusals and status (spec/60_exceptions.md) -/

/-- A host operation is refused for exactly the first of R113's reasons in R114's order, and then nothing changes but the
mark and the reason; otherwise it returns OK (R112-R114; D4, D21, D23, D34, and assumptions 9, 12, 15). -/
def Obligations.HostOperationOutcome : Prop :=
  ∀ (s : State) (w : Word) (payload : List Byte) (overlaps : Bool) (rest : List Input),
    s.inputs = .call w payload overlaps :: rest →
    (∀ r, refusalReason s.life w payload overlaps = some r →
      step s = .next (refusedState { s with inputs := rest } r)) ∧
    (refusalReason s.life w payload overlaps = none →
      ∃ t m, step s = .next t ∧ t.report = .returned .ok m ∧ t.refusalMark = s.refusalMark)

/-- While `life` is not READY, every host operation but INITIALIZE is refused `NotReady` (R17, D23). -/
def Obligations.NotReadyRefused : Prop :=
  ∀ (i : Instr) (s : State), i.isHostOp = true → isInit i = false → s.life ≠ .ready →
    exec i s = .next (refusedState s .notReady)

/-- On a READY handle an operand outside R61 is refused `BadRange`, for each of the six set operations (R61, D4). -/
def Obligations.BadRangeRefused : Prop :=
  ∀ s : State, s.life = .ready →
    (∀ p x : Byte, 15 < p.toNat →
      exec (.sets p x) s = .next (refusedState s .badRange) ∧
      exec (.setsHex p x) s = .next (refusedState s .badRange) ∧
      exec (.setsChar p x) s = .next (refusedState s .badRange)) ∧
    (∀ (p n : Byte) (v : List Byte), 15 < p.toNat ∨ 16 < p.toNat + n.toNat ∨ v.length ≠ n.toNat →
      exec (.setm p n v) s = .next (refusedState s .badRange) ∧
      exec (.setmHex p n v) s = .next (refusedState s .badRange) ∧
      exec (.setmChar p n v) s = .next (refusedState s .badRange))

/-- INITIALIZE with a display type other than 0 or 1 is refused `BadType`, in every `life` state (R109, D37). -/
def Obligations.BadTypeRefused : Prop :=
  ∀ (s : State) (t : Byte), 2 ≤ t.toNat → exec (.init t) s = .next (refusedState s .badType)

/-- Once set, the refusal mark stays (R113; assumption 10). -/
def Obligations.RefusalMarkStays : Prop :=
  ∀ s t : State, step s = .next t → s.refusalMark = true → t.refusalMark = true

/-- Every host operation either is refused, as R113 says a refusal is (a next state with the mark set and the reason reported:
assumptions 9, 10), or returns OK with the mark as it was; none returns FAIL (R112). Which of the two is HostOperationOutcome's. -/
def Obligations.StatusIsOkWhenAdmitted : Prop :=
  ∀ (i : Instr) (s : State), i.isHostOp = true →
    ∃ t, exec i s = .next t ∧
      ((∃ r, t = refusedState s r) ∨ ∃ m, t.report = .returned .ok m ∧ t.refusalMark = s.refusalMark)

/-! ### Life cycle (spec/45_lifecycle.md) -/

/-- INITIALIZE with an admitted type, with no transaction open: every field of the block, the trace and the status (R109,
R29; the pins and their order are D5). -/
def Obligations.InitializeResult : Prop :=
  ∀ (s : State) (t : Byte) (d : DisplayType), s.rx = Receiver.closed →
    (t = 0x00 ∧ d = .cathode ∨ t = 0x01 ∧ d = .anode) →
    exec (.init t) s = .next { s with
      life := .ready
      dtype := d
      shadow := Vector.replicate 16 0x00
      pins := { stb := true, clk := true, dioDir := .output, dioOut := true }
      trace := s.trace ++ [.platInit, .stb true, .clk true, .dioDir .output, .dioDrive true]
      report := .returned .ok none }

/-- DEINITIALIZE on a READY handle: the pins take INERT, PlatDeinit is called, `life` = DEINIT; nothing else changes (R110,
D22, D23; assumptions 6, 23). -/
def Obligations.DeinitializeResult : Prop :=
  ∀ s : State, s.life = .ready →
    exec .deinit s = .next { s with
      life := .deinit
      pins := Config.inert
      trace := s.trace ++ [.platDeinit]
      report := .returned .ok none }

/-- Only INITIALIZE and DEINITIALIZE write `life`, only INITIALIZE writes `dtype` (R17, R18), and only INITIALIZE and, on an
ANODE handle, the set-position family write `shadow` (R21, D23). -/
def Obligations.WhoWritesTheBlockState : Prop :=
  ∀ (i : Instr) (s t : State), exec i s = .next t → isInit i = false →
    (i ≠ .deinit → t.life = s.life) ∧ t.dtype = s.dtype ∧
    (isSetOp i = false ∨ s.dtype = .cathode → t.shadow = s.shadow)

/-- Power-on of a machine built with any glyph tables: `life` = UNINIT, no event, no transaction, PEER_RAM holding the
PEER_INIT draw at each of its 16 addresses, the tables as given, no mark, nothing issued, and every host operation but
INITIALIZE refused; State.reset is power-on with the default tables (R8, R29, R46, R124, D18, D23, D36; assumptions 3, 10,
11, 18, 26). -/
def Obligations.PowerOn : Prop :=
  State.reset = State.powerOn GlyphRom.default ∧
  ∀ rom : GlyphRom,
    let s := State.powerOn rom
    s.life = .uninit ∧ s.trace = [] ∧ s.rx = Receiver.closed ∧ s.rom = rom ∧
    (∀ a, s.peer.ram.read a = if a < 16 then some (Config.peerInitRam a) else none) ∧
    s.refusalMark = false ∧ s.inputs = [] ∧
    ∀ i : Instr, i.isHostOp = true → isInit i = false → exec i s = .next (refusedState s .notReady)

/-! ### The transport (spec/40_bus_transport.md) -/

/-- WRITE_BYTES(bs) from any state: bit by bit, least-significant bit first, with the delays of R66; `dio_dir`, `clk` and
`dio_out` as R66 leaves them, and nothing else of the block. -/
def Obligations.WriteBytesResult : Prop :=
  ∀ (bs : List Byte) (s : State),
    writeBytes bs s = { s with
      trace := s.trace ++ .dioDir .output ::
        bs.flatMap (fun b => (List.range 8).flatMap fun m =>
          [.clk false, .delay 1, .dioDrive (b.getLsbD m), .clk true, .delay 1])
      pins := { s.pins with
        clk := if bs = [] then s.pins.clk else true
        dioDir := .output
        dioOut := lastLevel s.pins.dioOut bs }
      rx := (writeBytes bs s).rx }

/-- READ_BYTES(n) from any state: n bytes whose bits are the samples in order, with the delays of R67; `dio_dir` = IN, `clk`
as R67 leaves it, `dio_out` unchanged, and nothing else of the block (assumption 4 for the level sampled). -/
def Obligations.ReadBytesResult : Prop :=
  ∀ (n : Nat) (s : State), ∃ (bs : List Byte) (t : State),
    readBytes n s = (bs, t) ∧ bs.length = n ∧
    t = { s with
      trace := s.trace ++ .dioDir .input :: .delay 5 ::
        bs.flatMap (fun b => (List.range 8).flatMap (fun m =>
          [.clk false, .delay 1, .clk true, .dioSample (b.getLsbD m), .delay 1]) ++ [.delay 2])
      pins := { s.pins with clk := if n = 0 then s.pins.clk else true, dioDir := .input }
      rx := t.rx
      draws := t.draws }

/-- Seen from the wire, SEND(bs) is the one transaction that writes bs and XFER(cmd, n) the one that writes cmd and reads
its n bytes: the view of R45 over the events of R66, R67 and R69. -/
def Obligations.TransactionView : Prop :=
  ∀ (s : State) (cmd : Byte) (bs : List Byte) (n : Nat),
    transactionsOf s.pins (newEvents s (send bs s)) = [written bs] ∧
    transactionsOf s.pins (newEvents s (xfer cmd n s).2) = [.wr cmd :: (xfer cmd n s).1.map .rd]

/-- Everything the block sends is framed: but for INITIALIZE's level setting, each STB low is followed by one STB high, and
CLK and DIO move, and DIO is sampled, only between them (R69, R71, R130). -/
def Obligations.FramingHolds : Prop :=
  ∀ (i : Instr) (s t : State), isInit i = false → exec i s = .next t → bracketed (newEvents s t) = true

/-- Every transaction an instruction sends has one of the shapes of R35 and begins with one of R55's four commands, never
with a byte of R56 (D9). -/
def Obligations.OnlyFourCommandsEmitted : Prop :=
  ∀ (i : Instr) (s t : State), exec i s = .next t →
    ∀ tr ∈ transactionsOf s.pins (newEvents s t), emittedTransaction tr = true

/-- Between transactions STB and CLK are high: an instruction other than DEINITIALIZE that is not refused leaves both high
and no transaction open, from any state (R71; D5 for INITIALIZE). -/
def Obligations.IdleLevelsHigh : Prop :=
  ∀ (i : Instr) (s t : State), i ≠ .deinit → exec i s = .next t → (∀ r, t ≠ refusedState s r) →
    t.pins.stb = true ∧ t.pins.clk = true ∧ t.rx = Receiver.closed

/-- The delay units of each operation are those of R134. -/
def Obligations.DelayUnitsOfOperations : Prop :=
  ∀ s : State,
    (∀ bs, delayUnits (newEvents s (writeBytes bs s)) = 16 * bs.length) ∧
    (∀ n, delayUnits (newEvents s (readBytes n s).2) = 5 + 18 * n) ∧
    (∀ x t, exec (.init x) s = .next t → delayUnits (newEvents s t) = 0) ∧
    (∀ t, exec .deinit s = .next t → delayUnits (newEvents s t) = 0) ∧
    (s.life = .ready →
      (∀ br on t, exec (.config br on) s = .next t → delayUnits (newEvents s t) = 16) ∧
      (∀ t, exec .scan s = .next t → delayUnits (newEvents s t) = 93) ∧
      (∀ i t, isSetOp i = true → i.WellFormed → s.dtype = .anode → exec i s = .next t →
        delayUnits (newEvents s t) = 288) ∧
      (∀ p n v t, rangeOk p n v = true → s.dtype = .cathode →
        exec (.setm p n v) s = .next t ∨ exec (.setmHex p n v) s = .next t ∨ exec (.setmChar p n v) s = .next t →
        delayUnits (newEvents s t) = 16 * n.toNat + 32) ∧
      (∀ p x t, positionOk p = true → s.dtype = .cathode →
        exec (.sets p x) s = .next t ∨ exec (.setsHex p x) s = .next t ∨ exec (.setsChar p x) s = .next t →
        delayUnits (newEvents s t) = 48))

/-- For every T_UNIT, PEER_TWAIT and PEER_MIN_HALF that meet R127 and R128 (the model's constants, of which nothing is known,
are only one choice of them): every CLK phase an instruction makes lasts at least PEER_MIN_HALF and every turn of DIO to
input is followed by at least PEER_TWAIT before the clock falls (D8, assumption 8; INITIALIZE only sets levels). -/
def Obligations.PeerTimingRespected : Prop :=
  ∀ tUnit peerTwait peerMinHalf : Nat, TimingMet tUnit peerTwait peerMinHalf →
    ∀ (i : Instr) (s t : State), isInit i = false → exec i s = .next t →
      (∀ u ∈ clkPhases (newEvents s t), peerMinHalf ≤ u * tUnit) ∧
      (∀ u ∈ readSettles (newEvents s t), peerTwait ≤ u * tUnit)

/-! ### Wire commands and CONFIG (spec/41_command_encoder.md) -/

/-- DATA_WRITE: the transaction {Wr 0x40}, which puts the peer in write, auto-increment, normal mode (R72; the peer's part is
R47, D17; assumption 13). -/
def Obligations.DataWriteResult : Prop :=
  ∀ s : State, ∃ t, exec .dataWrite s = .next t ∧
    CommandSent s t 0x40 { s.peer.regs with mode := .write, amode := .auto, tmode := .normal }

/-- DATA_READ: the transaction {Wr 0x42}, which puts the peer in read, auto-increment, normal mode (R73, D9; R47, D17;
assumption 13). -/
def Obligations.DataReadResult : Prop :=
  ∀ s : State, ∃ t, exec .dataRead s = .next t ∧
    CommandSent s t 0x42 { s.peer.regs with mode := .read, amode := .auto, tmode := .normal }

/-- ADDR_SET a: the transaction {Wr 0xC0 + a}, which sets the peer's pointer to a (R74; R47, D17; assumption 13). -/
def Obligations.AddrSetResult : Prop :=
  ∀ (s : State) (a : BitVec 4), ∃ (t : State) (q : Fin 17), q.val = a.toNat ∧ exec (.addrSet a) s = .next t ∧
    CommandSent s t (BitVec.ofNat 8 (0xC0 + a.toNat)) { s.peer.regs with ptr := q }

/-- DISP_CTRL on, br: the transaction {Wr 0x80 + 8*on + br}, which sets the peer's display on-bit and brightness (R55, R75,
D9; R47, D17; assumption 13). -/
def Obligations.DispCtrlResult : Prop :=
  ∀ (s : State) (on : Bool) (br : BitVec 3), ∃ t, exec (.dispCtrl on br) s = .next t ∧
    CommandSent s t (BitVec.ofNat 8 (0x80 + 8 * on.toNat + br.toNat)) { s.peer.regs with dispOn := on, bright := br }

/-- CONFIG_DISPLAY on a READY handle: one transaction with the byte 0x80 + 8*(on?) + brightness mod 8, brightness masked and
never refused, any nonzero on-flag on; the peer shows both; nothing of it stays in the block (R76, R19, D9, D24). -/
def Obligations.ConfigDisplayResult : Prop :=
  ∀ (s : State) (br on : Byte), s.life = .ready → ∃ t, exec (.config br on) s = .next t ∧
    CommandSent { s with report := .returned .ok none } t
      (BitVec.ofNat 8 (0x80 + (if on.toNat = 0 then 0 else 8) + br.toNat % 8))
      { s.peer.regs with dispOn := decide (on.toNat ≠ 0), bright := BitVec.ofNat 3 (br.toNat % 8) }

/-! ### The display (spec/42_display_register.md) -/

/-- SET_MULTI: refused `NotReady`, then `BadRange`; otherwise the cathode pass-through or the anode rewrite, and OK (R82,
through R77, R78 and R81; PEER_RAM's part is R48, D17). -/
def Obligations.SetMultiResult : Prop :=
  ∀ (s : State) (p n : Byte) (gs : List Byte),
    (s.life ≠ .ready → exec (.setm p n gs) s = .next (refusedState s .notReady)) ∧
    (s.life = .ready → 15 < p.toNat ∨ 16 < p.toNat + n.toNat ∨ gs.length ≠ n.toNat →
      exec (.setm p n gs) s = .next (refusedState s .badRange)) ∧
    (s.life = .ready → p.toNat ≤ 15 → p.toNat + n.toNat ≤ 16 → gs.length = n.toNat →
      ∃ t, exec (.setm p n gs) s = .next t ∧ SetDone s t p gs)

/-- SET_SINGLE is SET_MULTI with one glyph (R83, D27). -/
def Obligations.SetSingleResult : Prop :=
  ∀ (s : State) (p g : Byte), s.life = .ready → p.toNat ≤ 15 →
    ∃ t, exec (.sets p g) s = .next t ∧ SetDone s t p [g]

/-- In CATHODE mode, after SET_SINGLE(P, g) the peer holds g at P, every other address keeps its byte, and the block's
shadow is untouched (R87, R78). -/
def Obligations.CathodeRoundTrip : Prop :=
  ∀ (s t : State) (p g : Byte), s.life = .ready → s.dtype = .cathode → p.toNat ≤ 15 → exec (.sets p g) s = .next t →
    t.shadow = s.shadow ∧
    ∀ a, t.peer.ram.read a = if a = p.toNat then some g else s.peer.ram.read a

/-- ANODE_UPDATE bit by bit: bit b of lane i is glyph bit i/2 where it belongs to position p, and keeps its value where it
does not (R79, R80, R85; the lane order is D14). -/
def Obligations.AnodeUpdateBits : Prop :=
  ∀ (sh : Shadow) (p : Nat) (g : Byte) (i b : Nat), i < 16 → b < 8 →
    (Shadow.get (anodeUpdate sh p g) i).getLsbD b =
      if belongsTo p i b then g.getLsbD (i / 2) else (Shadow.get sh i).getLsbD b

/-- Positions outside 0..9 have no effect on the shadow: such an update changes nothing, and of a run of glyphs from position
p those past position 9 are consumed and dropped (R80). -/
def Obligations.AnodePositionsPastNine : Prop :=
  ∀ (sh : Shadow) (p : Nat) (g : Byte) (gs : List Byte),
    (10 ≤ p → anodeUpdate sh p g = sh) ∧ anodeUpdates sh p gs = anodeUpdates sh p (gs.take (10 - p))

/-- SETM_ANODE's loop and what it writes: it is ANODE_UPDATE(P + j, G[j]) for j = 0, 1, .. in this order (R81); after it each
position 0..9 that the run reaches holds its glyph, and every other position 0..9 the one it held; and after any sequence of
updates from the zeroed shadow each position 0..9 holds the glyph last written there, 0x00 if none (R86, D14). -/
def Obligations.ShadowHoldsLastGlyphs : Prop :=
  (∀ (sh : Shadow) (p : Nat) (gs : List Byte),
    anodeUpdates sh p gs = (gs.zipIdx p).foldl (fun sh x => anodeUpdate sh x.2 x.1) sh) ∧
  (∀ (sh : Shadow) (p : Nat) (gs : List Byte) (q : Nat), q ≤ 9 →
    positionGlyph (anodeUpdates sh p gs) q =
      if p ≤ q ∧ q < p + gs.length then gs.getD (q - p) 0x00 else positionGlyph sh q) ∧
  ∀ (us : List (Nat × Byte)) (p : Nat), p ≤ 9 →
    positionGlyph (us.foldl (fun sh u => anodeUpdate sh u.1 u.2) (Vector.replicate 16 0)) p = lastWritten p us

/-- After any admitted ANODE set-position operation, PEER_RAM equals SHADOW at all 16 addresses (R43, R81; PEER_RAM's part is
R48, D17). -/
def Obligations.AnodePeerEqualsShadow : Prop :=
  ∀ (i : Instr) (s : State), isSetOp i = true → i.WellFormed → s.life = .ready → s.dtype = .anode →
    ∃ t, exec i s = .next t ∧ ∀ a, a < 16 → t.peer.ram.read a = some (Shadow.get t.shadow a)

/-- MemWrite then MemRead gives the bytes written, and every other index keeps its byte (R31). -/
def Obligations.ShadowReadAfterWrite : Prop :=
  ∀ (sh : Shadow) (i : Nat) (v : List Byte), i + v.length ≤ 16 →
    memRead (memWrite sh i v) i v.length = v ∧
    ∀ j, j < i ∨ i + v.length ≤ j → Shadow.get (memWrite sh i v) j = Shadow.get sh j

/-! ### Glyphs (spec/43_glyph_rom.md) -/

/-- The decimal point is taken off before lookup and put back after, over any tables: the flag is v & 0x80 and the key is
v & 0x7F (R93, in R94's and R95's encoders; blank for the keys 16..127 of the basic encoder is the spec's decision D13), and
setting bit 7 of the input sets bit 7 of the glyph and changes no other (R97, derived by the spec). -/
def Obligations.DecimalPointIndependent : Prop :=
  ∀ (rom : GlyphRom) (v : Byte),
    hexGlyph rom v = (if (v &&& 0x7F).toNat ≤ 15 then rom.hexAt (v &&& 0x7F).toNat else 0x00) ||| (v &&& 0x80) ∧
    charGlyph rom v = rom.charAt (v &&& 0x7F).toNat ||| (v &&& 0x80) ∧
    hexGlyph rom (v ||| 0x80) = hexGlyph rom v ||| 0x80 ∧
    charGlyph rom (v ||| 0x80) = charGlyph rom v ||| 0x80

/-- The basic encoder's value for every input, over the default tables: HEX_GLYPH of the key for 0..15, blank above, with the
input's decimal point (R94, R96, D13; the table is R90's default, D10, assumption 18). -/
def Obligations.HexGlyphValues : Prop :=
  ∀ v : Byte, hexGlyph GlyphRom.default v =
    ([0x3F, 0x06, 0x5B, 0x4F, 0x66, 0x6D, 0x7D, 0x07, 0x7F, 0x6F, 0x77, 0x7C, 0x39, 0x5E, 0x79, 0x71] : List Byte).getD
      (v.toNat % 128) 0x00 ||| (v &&& 0x80)

/-- The extended alphabet, for every HEX_GLYPH and every OVERSCORE_CODE (R91, R92, R96; D11, D12, D29, assumption 18): letters
listed in one case are reached by both codes, 'b' and 'B' differ, letters listed in both cases have two glyphs, underscore
and dash have theirs, the overscore has its own at its code, codes 0..15 are the hex digits, and EVERY other 7-bit code is
blank with its decimal point kept. -/
def Obligations.CharGlyphCases : Prop :=
  ∀ (hex : Vector Byte 16) (overscore : Byte),
    let rom := GlyphRom.ofParams hex overscore
    (∀ c ∈ ([0x41, 0x43, 0x44, 0x45, 0x46, 0x4A, 0x50, 0x51, 0x52, 0x53, 0x54, 0x59] : List Byte),
      charGlyph rom c = charGlyph rom (c ||| 0x20) ∧ charGlyph rom c ≠ 0x00) ∧
    (∀ c ∈ ([0x42, 0x47, 0x48, 0x49, 0x4C, 0x4E, 0x4F, 0x55] : List Byte),
      charGlyph rom c ≠ charGlyph rom (c ||| 0x20)) ∧
    charGlyph rom 0x62 = 0x7C ∧ charGlyph rom 0x5F = 0x08 ∧ charGlyph rom 0x2D = 0x40 ∧
    (16 ≤ overscore.toNat → overscore.toNat < 128 → overscore ∉ listedCodes →
      charGlyph rom overscore = 0x01 ∧ charGlyph rom (overscore ||| 0x80) = 0x81) ∧
    (∀ c : Byte, c.toNat ≤ 15 → charGlyph rom c = hexGlyph rom c) ∧
    ∀ c : Byte, 16 ≤ c.toNat → c.toNat < 128 → c ∉ listedCodes → c ≠ overscore →
      charGlyph rom c = 0x00 ∧ charGlyph rom (c ||| 0x80) = 0x80

/-- SET_MULTI_HEX: refused as SET_MULTI is; otherwise the values are resolved by HEXGLYPH and written as SET_MULTI writes
glyphs (R98). -/
def Obligations.SetMultiHexResult : Prop :=
  ∀ (s : State) (p n : Byte) (vs : List Byte),
    (s.life ≠ .ready → exec (.setmHex p n vs) s = .next (refusedState s .notReady)) ∧
    (s.life = .ready → 15 < p.toNat ∨ 16 < p.toNat + n.toNat ∨ vs.length ≠ n.toNat →
      exec (.setmHex p n vs) s = .next (refusedState s .badRange)) ∧
    (s.life = .ready → p.toNat ≤ 15 → p.toNat + n.toNat ≤ 16 → vs.length = n.toNat →
      ∃ t, exec (.setmHex p n vs) s = .next t ∧ SetDone s t p (vs.map (hexGlyph s.rom)))

/-- SET_SINGLE_HEX writes the one glyph HEXGLYPH(v) (R99, D27). -/
def Obligations.SetSingleHexResult : Prop :=
  ∀ (s : State) (p v : Byte), s.life = .ready → p.toNat ≤ 15 →
    ∃ t, exec (.setsHex p v) s = .next t ∧ SetDone s t p [hexGlyph s.rom v]

/-- SET_MULTI_CHAR writes the glyphs CHARGLYPH gives (R100, D11, D12). -/
def Obligations.SetMultiCharResult : Prop :=
  ∀ (s : State) (p n : Byte) (vs : List Byte), s.life = .ready → p.toNat ≤ 15 → p.toNat + n.toNat ≤ 16 →
    vs.length = n.toNat →
    ∃ t, exec (.setmChar p n vs) s = .next t ∧ SetDone s t p (vs.map (charGlyph s.rom))

/-- SET_SINGLE_CHAR writes the one glyph CHARGLYPH(v) (R101, D27). -/
def Obligations.SetSingleCharResult : Prop :=
  ∀ (s : State) (p v : Byte), s.life = .ready → p.toNat ≤ 15 →
    ∃ t, exec (.setsChar p v) s = .next t ∧ SetDone s t p [charGlyph s.rom v]

/-! ### Key scan (spec/44_key_scan.md) -/

/-- KEYDECODE bit by bit: mask bit r*8 + 2j is bit r of byte j, mask bit r*8 + 2j + 1 is bit r + 4 (R103), with the source's
two vectors. -/
def Obligations.KeyDecodeBits : Prop :=
  (∀ (b0 b1 b2 b3 : Byte) (r j : Nat), r < 3 → j < 4 →
    (keyDecode [b0, b1, b2, b3]).getLsbD (r * 8 + 2 * j) = ([b0, b1, b2, b3].getD j 0).getLsbD r ∧
    (keyDecode [b0, b1, b2, b3]).getLsbD (r * 8 + 2 * j + 1) = ([b0, b1, b2, b3].getD j 0).getLsbD (r + 4)) ∧
  keyDecode [0x01, 0x00, 0x00, 0x00] = 0x000001 ∧ keyDecode [0x10, 0x00, 0x00, 0x00] = 0x000002

/-- The source's procedure computes the same mask on every input (R104). -/
def Obligations.KeyDecodeProcedureAgrees : Prop :=
  ∀ b0 b1 b2 b3 : Byte, keyDecodeProc [b0, b1, b2, b3] = keyDecode [b0, b1, b2, b3]

/-- Raw bits 3 and 7 of each byte belong to no key: the mask does not depend on them (R105, D16). -/
def Obligations.RawBitsThreeSevenIgnored : Prop :=
  ∀ b0 b1 b2 b3 : Byte,
    keyDecode [b0, b1, b2, b3] = keyDecode [b0 &&& 0x77, b1 &&& 0x77, b2 &&& 0x77, b3 &&& 0x77]

/-- SCAN_KEYS on a READY handle: one transaction {Wr 0x42, Rd x 4}, DIO left an input, OK, and a mask whose low 24 bits are
KEYDECODE of the four bytes read; bits 31..24 are any value (R108, R105, D9, D16, D30; the peer's part is R47, D17;
assumptions 4, 5). -/
def Obligations.ScanKeysResult : Prop :=
  ∀ s : State, s.life = .ready →
    ∃ (t : State) (bs : List Byte) (m : Word),
      exec .scan s = .next t ∧ bs.length = 4 ∧
      t = { s with
        trace := s.trace ++ xferEvents 0x42 bs
        pins := { stb := true, clk := true, dioDir := .input, dioOut := false }
        rx := Receiver.closed
        peer := { s.peer with
          regs := { s.peer.regs with mode := .read, amode := .auto, tmode := .normal } }
        draws := t.draws
        report := .returned .ok (some m) } ∧
      ∀ k, k < 24 → m.getLsbD k = (keyDecode bs).getLsbD k

/-- With the reference peer answering, SCAN's mask is the key matrix: mask bit r*8 + c = K[r][c] (R49, R103, D16, D17;
assumption 4). -/
def Obligations.ScanReadsReferenceKeys : Prop :=
  ∀ s : State, s.life = .ready → s.source = .reference →
    ∃ (t : State) (m : Word), exec .scan s = .next t ∧ t.report = .returned .ok (some m) ∧
      ∀ r c, r < 3 → c < 8 → m.getLsbD (r * 8 + c) = keyAt s.peer.regs.keys r c

/-! ### What an operation does not depend on -/

/-- Only the set-position family reads `dtype` (R18): any other instruction does the same whatever `dtype` is, and an
admitted INITIALIZE overwrites it. -/
def Obligations.OnlySetOpsReadDtype : Prop :=
  ∀ (i : Instr) (s t : State) (d : DisplayType), isSetOp i = false → exec i s = .next t →
    (isInit i = false → exec i { s with dtype := d } = .next { t with dtype := d }) ∧
    (isInit i = true → i.WellFormed → exec i { s with dtype := d } = .next t)

/-- The cathode path neither reads nor writes `shadow` (R21, R78, D23). -/
def Obligations.CathodeIgnoresShadow : Prop :=
  ∀ (i : Instr) (s t : State) (sh : Shadow), isInit i = false → s.dtype = .cathode → exec i s = .next t →
    exec i { s with shadow := sh } = .next { t with shadow := sh }

/-- The block reads nothing of the peer (R30, R46): with the oracle answering its samples, whatever the peer holds, the block
and its trace come out the same (assumption 4). -/
def Obligations.BlockIgnoresPeerState : Prop :=
  ∀ (i : Instr) (s t : State) (q : Peer), s.source = .oracle → exec i s = .next t →
    ∃ q', exec i { s with peer := q } = .next { t with peer := q' }

/-! ### The invariant -/

/-- Every step keeps the invariant (R16, R21, R22, R69, R71, R112, R113; D15, D23; assumptions 3, 10). -/
def Obligations.StepKeepsInvariant : Prop :=
  ∀ s t : State, Inv s → step s = .next t → Inv t

/-- It holds at power-on, whatever the glyph tables. -/
def Obligations.ResetMeetsInvariant : Prop :=
  Inv State.reset ∧ ∀ rom : GlyphRom, Inv (State.powerOn rom)

/-! ### GLYPH_ROM -/

/-- No step writes the glyph tables (R42, R88). -/
def Obligations.GlyphRomNeverWritten : Prop :=
  ∀ s t : State, step s = .next t → t.rom = s.rom

/-- The extended encoder's value for every input, over the default tables: R91's glyph for each of the 128 codes, one row of
sixteen codes a line, with the input's decimal point (R91, R95, R96; D10 to D12, D29, assumption 18). -/
def Obligations.CharGlyphValues : Prop :=
  ∀ v : Byte, charGlyph GlyphRom.default v =
    ([0x3F, 0x06, 0x5B, 0x4F, 0x66, 0x6D, 0x7D, 0x07, 0x7F, 0x6F, 0x77, 0x7C, 0x39, 0x5E, 0x79, 0x71] ++
     [0x00, 0x00, 0x00, 0x00, 0x00, 0x00, 0x00, 0x00, 0x00, 0x00, 0x00, 0x00, 0x00, 0x00, 0x00, 0x00] ++
     [0x00, 0x00, 0x00, 0x00, 0x00, 0x00, 0x00, 0x00, 0x00, 0x00, 0x00, 0x00, 0x00, 0x40, 0x00, 0x00] ++
     [0x00, 0x00, 0x00, 0x00, 0x00, 0x00, 0x00, 0x00, 0x00, 0x00, 0x00, 0x00, 0x00, 0x00, 0x00, 0x00] ++
     [0x00, 0x77, 0x00, 0x39, 0x5E, 0x79, 0x71, 0x3D, 0x76, 0x30, 0x1E, 0x00, 0x38, 0x00, 0x37, 0x3F] ++
     [0x73, 0x67, 0x50, 0x6D, 0x78, 0x3E, 0x00, 0x00, 0x00, 0x6E, 0x00, 0x00, 0x00, 0x00, 0x00, 0x08] ++
     [0x00, 0x77, 0x7C, 0x39, 0x5E, 0x79, 0x71, 0x6F, 0x74, 0x10, 0x1E, 0x00, 0x06, 0x00, 0x54, 0x5C] ++
     [0x73, 0x67, 0x50, 0x6D, 0x78, 0x1C, 0x00, 0x00, 0x00, 0x6E, 0x00, 0x00, 0x00, 0x00, 0x01, 0x00] : List Byte).getD
      (v.toNat % 128) 0x00 ||| (v &&& 0x80)
end

