-- ==== Sys2Proof/Laws/State.lean ====
section
/-! SUPPORT. The fields of the state after each shared update, so that no later proof unfolds a record update. -/

namespace Sys2Proof.Laws

open Sys2Proof.Machine

@[simp] theorem act_life (e : Event) (s : State) : (act e s).life = s.life := rfl

@[simp] theorem act_dtype (e : Event) (s : State) : (act e s).dtype = s.dtype := rfl

@[simp] theorem act_shadow (e : Event) (s : State) : (act e s).shadow = s.shadow := rfl

@[simp] theorem act_rom (e : Event) (s : State) : (act e s).rom = s.rom := rfl

@[simp] theorem act_pins (e : Event) (s : State) : (act e s).pins = pinsAfter s.pins e := rfl

@[simp] theorem act_trace (e : Event) (s : State) : (act e s).trace = s.trace ++ [e] := rfl

@[simp] theorem act_rx (e : Event) (s : State) : (act e s).rx = s.rx.hear (pinsAfter s.pins e) e := rfl

@[simp] theorem act_peer (e : Event) (s : State) : (act e s).peer = s.peer.hear s.rx e := rfl

@[simp] theorem act_source (e : Event) (s : State) : (act e s).source = s.source := rfl

@[simp] theorem act_draws (e : Event) (s : State) : (act e s).draws = s.draws := rfl

@[simp] theorem act_report (e : Event) (s : State) : (act e s).report = s.report := rfl

@[simp] theorem act_refusalMark (e : Event) (s : State) : (act e s).refusalMark = s.refusalMark := rfl

@[simp] theorem act_inputs (e : Event) (s : State) : (act e s).inputs = s.inputs := rfl

@[simp] theorem refuse_life (r : Reason) (s : State) : (refuse r s).life = s.life := rfl

@[simp] theorem refuse_dtype (r : Reason) (s : State) : (refuse r s).dtype = s.dtype := rfl

@[simp] theorem refuse_shadow (r : Reason) (s : State) : (refuse r s).shadow = s.shadow := rfl

@[simp] theorem refuse_rom (r : Reason) (s : State) : (refuse r s).rom = s.rom := rfl

@[simp] theorem refuse_pins (r : Reason) (s : State) : (refuse r s).pins = s.pins := rfl

@[simp] theorem refuse_trace (r : Reason) (s : State) : (refuse r s).trace = s.trace := rfl

@[simp] theorem refuse_rx (r : Reason) (s : State) : (refuse r s).rx = s.rx := rfl

@[simp] theorem refuse_peer (r : Reason) (s : State) : (refuse r s).peer = s.peer := rfl

@[simp] theorem refuse_source (r : Reason) (s : State) : (refuse r s).source = s.source := rfl

@[simp] theorem refuse_draws (r : Reason) (s : State) : (refuse r s).draws = s.draws := rfl

@[simp] theorem refuse_report (r : Reason) (s : State) : (refuse r s).report = .refused r := rfl

@[simp] theorem refuse_refusalMark (r : Reason) (s : State) : (refuse r s).refusalMark = true := rfl

@[simp] theorem refuse_inputs (r : Reason) (s : State) : (refuse r s).inputs = s.inputs := rfl

@[simp] theorem returnOk_life (m : Option Word) (s : State) : (returnOk m s).life = s.life := rfl

@[simp] theorem returnOk_dtype (m : Option Word) (s : State) : (returnOk m s).dtype = s.dtype := rfl

@[simp] theorem returnOk_shadow (m : Option Word) (s : State) : (returnOk m s).shadow = s.shadow := rfl

@[simp] theorem returnOk_rom (m : Option Word) (s : State) : (returnOk m s).rom = s.rom := rfl

@[simp] theorem returnOk_pins (m : Option Word) (s : State) : (returnOk m s).pins = s.pins := rfl

@[simp] theorem returnOk_trace (m : Option Word) (s : State) : (returnOk m s).trace = s.trace := rfl

@[simp] theorem returnOk_rx (m : Option Word) (s : State) : (returnOk m s).rx = s.rx := rfl

@[simp] theorem returnOk_peer (m : Option Word) (s : State) : (returnOk m s).peer = s.peer := rfl

@[simp] theorem returnOk_source (m : Option Word) (s : State) : (returnOk m s).source = s.source := rfl

@[simp] theorem returnOk_draws (m : Option Word) (s : State) : (returnOk m s).draws = s.draws := rfl

@[simp] theorem returnOk_report (m : Option Word) (s : State) : (returnOk m s).report = .returned .ok m := rfl

@[simp] theorem returnOk_refusalMark (m : Option Word) (s : State) : (returnOk m s).refusalMark = s.refusalMark := rfl

@[simp] theorem returnOk_inputs (m : Option Word) (s : State) : (returnOk m s).inputs = s.inputs := rfl

@[simp] theorem withFetchWord_life (s : State) (nbits w : Nat) :
    (s.withFetchWord nbits w).life = s.life := rfl

@[simp] theorem withFetchWord_dtype (s : State) (nbits w : Nat) :
    (s.withFetchWord nbits w).dtype = s.dtype := rfl

@[simp] theorem withFetchWord_shadow (s : State) (nbits w : Nat) :
    (s.withFetchWord nbits w).shadow = s.shadow := rfl

@[simp] theorem withFetchWord_rom (s : State) (nbits w : Nat) :
    (s.withFetchWord nbits w).rom = s.rom := rfl

@[simp] theorem withFetchWord_pins (s : State) (nbits w : Nat) :
    (s.withFetchWord nbits w).pins = s.pins := rfl

@[simp] theorem withFetchWord_trace (s : State) (nbits w : Nat) :
    (s.withFetchWord nbits w).trace = s.trace := rfl

@[simp] theorem withFetchWord_rx (s : State) (nbits w : Nat) :
    (s.withFetchWord nbits w).rx = s.rx := rfl

@[simp] theorem withFetchWord_peer (s : State) (nbits w : Nat) :
    (s.withFetchWord nbits w).peer = s.peer := rfl

@[simp] theorem withFetchWord_source (s : State) (nbits w : Nat) :
    (s.withFetchWord nbits w).source = s.source := rfl

@[simp] theorem withFetchWord_draws (s : State) (nbits w : Nat) :
    (s.withFetchWord nbits w).draws = s.draws := rfl

@[simp] theorem withFetchWord_report (s : State) (nbits w : Nat) :
    (s.withFetchWord nbits w).report = s.report := rfl

@[simp] theorem withFetchWord_refusalMark (s : State) (nbits w : Nat) :
    (s.withFetchWord nbits w).refusalMark = s.refusalMark := rfl

@[simp] theorem withFetchWord_inputs (s : State) (nbits w : Nat) :
    (s.withFetchWord nbits w).inputs = tableInput nbits w :: s.inputs := rfl

end Sys2Proof.Laws
end

