-- ==== Sys2Proof/Laws/Memory.lean ====
section
/-! SUPPORT. PEER_RAM: read after write, and that every operation of the peer keeps the canonical form. -/

namespace Sys2Proof.Laws

open Sys2Proof.Machine

@[simp] theorem memory_read_nil (a : Nat) : Memory.read [] a = none := rfl

theorem memory_read_write (m : Memory) (a x : Nat) (b : Byte) :
    (m.write a b).read x = if x = a then some b else m.read x := by
  induction m with
  | nil => simp only [Memory.write, Memory.read, eq_comm]
  | cons c cs ih =>
    rw [Memory.write]
    split
    · simp only [Memory.read, @eq_comm _ x]
    · split
      next h =>
        subst h
        by_cases h : x = c.1 <;> simp [Memory.read, h, eq_comm]
      next h1 h2 =>
        rw [Memory.read, ih]
        by_cases h : c.1 = x
        · have : x ≠ a := fun e => h2 (by omega)
          simp [Memory.read, h, this]
        · simp [Memory.read, h]

theorem memory_wf_iff (m : Memory) : m.wf = true ↔ m.map Prod.fst = List.range 16 := by
  simp [Memory.wf]

/-- A store at a listed address keeps the addresses as they stand. -/
theorem memory_write_addresses (m : Memory) (a : Nat) (b : Byte) (hs : (m.map Prod.fst).Pairwise (· < ·))
    (ha : a ∈ m.map Prod.fst) : (m.write a b).map Prod.fst = m.map Prod.fst := by
  induction m with
  | nil => cases ha
  | cons c cs ih =>
    rw [List.map_cons, List.pairwise_cons] at hs
    rw [List.map_cons, List.mem_cons] at ha
    rw [Memory.write]
    split
    next hlt =>
      rcases ha with ha | ha
      · omega
      · have := hs.1 a ha
        omega
    next =>
      split
      next heq => rw [List.map_cons, List.map_cons, heq]
      next hne => rw [List.map_cons, List.map_cons, ih hs.2 (ha.resolve_left hne)]

theorem memory_write_wf (m : Memory) (a : Nat) (b : Byte) (ha : a < 16) (h : m.wf = true) :
    (m.write a b).wf = true := by
  rw [memory_wf_iff] at h ⊢
  rw [memory_write_addresses m a b (by rw [h]; exact List.pairwise_lt_range) (by rw [h]; exact List.mem_range.2 ha), h]

theorem memory_read_isSome (m : Memory) (a : Nat) : (m.read a).isSome = true ↔ a ∈ m.map Prod.fst := by
  induction m with
  | nil => simp
  | cons c cs ih =>
    rw [Memory.read, List.map_cons, List.mem_cons]
    by_cases h : c.1 = a
    · simp [h]
    · rw [if_neg h, ih, or_iff_right (Ne.symm h)]

/-- A canonical PEER_RAM holds a byte at each of its 16 addresses and none elsewhere (R38, R46). -/
theorem memory_read_wf (m : Memory) (h : m.wf = true) (a : Nat) : (m.read a).isSome = true ↔ a < 16 := by
  rw [memory_read_isSome, (memory_wf_iff m).1 h, List.mem_range]

theorem peerInit_wf : Memory.peerInit.wf = true := by
  rw [memory_wf_iff, Memory.peerInit, List.map_map]
  exact List.map_id _

theorem peerInit_read (a : Nat) (h : a < 16) : Memory.peerInit.read a = some (Config.peerInitRam a) := by
  interval_cases a <;> rfl

/-- What storing one data byte does (R48): one cell at `ptr`, or what PEER_OVERFLOW says. -/
theorem store_wf (p : Peer) (d : Byte) (h : p.ram.wf = true) : (p.store d).ram.wf = true := by
  unfold Peer.store
  split
  next hp => exact memory_write_wf _ _ _ hp h
  next =>
    dsimp only
    split
    next a _ => exact memory_write_wf _ _ _ a.isLt h
    next => exact h

theorem stores_wf (p : Peer) (ds : List Byte) (h : p.ram.wf = true) : (ds.foldl Peer.store p).ram.wf = true := by
  induction ds generalizing p with
  | nil => exact h
  | cons d ds ih => exact ih _ (store_wf p d h)

theorem commit_wf (p : Peer) (items : List BusItem) (h : p.ram.wf = true) : (p.commit items).ram.wf = true := by
  unfold Peer.commit
  split
  · split
    · exact h
    · exact h
    · exact stores_wf _ _ h
    · exact h
  · exact h

theorem hear_wf (p : Peer) (rx : Receiver) (e : Event) (h : p.ram.wf = true) : (p.hear rx e).ram.wf = true := by
  unfold Peer.hear
  split
  · split
    · exact commit_wf _ _ h
    · exact h
  all_goals exact h

/-- The data bytes of an address transaction with auto-increment (R48), none past address 15: each lands at its own
address, every other address keeps its byte, and `ptr` ends behind the last. -/
theorem stores_auto (ds : List Byte) (p : Peer) (ha : p.regs.amode = .auto)
    (hr : p.regs.ptr.val + ds.length ≤ 16) :
    (∀ x, (ds.foldl Peer.store p).ram.read x =
      if p.regs.ptr.val ≤ x ∧ x < p.regs.ptr.val + ds.length then ds[x - p.regs.ptr.val]? else p.ram.read x) ∧
    ∀ q : Fin 17, q.val = p.regs.ptr.val + ds.length → (ds.foldl Peer.store p).regs = { p.regs with ptr := q } := by
  induction ds generalizing p with
  | nil =>
    refine ⟨fun x => ?_, fun q hq => ?_⟩
    case refine_2 =>
      have : q = p.regs.ptr := Fin.ext (by simpa using hq)
      rw [this]
      rfl
    rw [if_neg (by simp only [List.length_nil]; omega)]
    rfl
  | cons d ds ih =>
    simp only [List.length_cons] at hr
    have hp : p.regs.ptr.val < 16 := by omega
    have hs : p.store d =
        { ram := p.ram.write p.regs.ptr.val d, regs := { p.regs with ptr := ⟨p.regs.ptr.val + 1, by omega⟩ } } := by
      simp [Peer.store, hp, ha]
    obtain ⟨h1, h2⟩ := ih (p.store d) (by rw [hs]; exact ha) (by rw [hs]; simp only; omega)
    rw [List.foldl_cons]
    refine ⟨fun x => ?_, fun q hq => ?_⟩
    · rw [h1, hs]
      simp only [memory_read_write, List.length_cons]
      by_cases hx : x = p.regs.ptr.val
      · subst hx
        rw [if_neg (by omega), if_pos rfl, if_pos (by omega)]
        simp
      · by_cases hin : p.regs.ptr.val + 1 ≤ x ∧ x < p.regs.ptr.val + 1 + ds.length
        · have hsub : x - p.regs.ptr.val = (x - (p.regs.ptr.val + 1)) + 1 := by omega
          rw [if_pos hin, if_pos (by omega), hsub, List.getElem?_cons_succ]
        · rw [if_neg hin, if_neg hx, if_neg (by omega)]
    · rw [h2 q (by rw [hs, hq]; simp only [List.length_cons]; omega), hs]

end Sys2Proof.Laws
end

