-- ==== Sys2Proof/Laws/Bus.lean ====
section
/-! SUPPORT. What each transport operation does, once: WRITE_BYTES, READ_BYTES, SEND and XFER (spec/40_bus_transport.md
R64-R69) as one record update each, with the receiver's and the peer's part in it. -/

namespace Sys2Proof.Laws

open Sys2Proof.Machine Sys2Proof.Safety

/-! ### Bits and bytes -/

theorem byteOfLevels_bitsOf (b : Byte) : byteOfLevels (bitsOf b) = b := by
  revert b
  decide +kernel

theorem getLsbD_byteOfLevels (a b c d e f g h : Level) (m : Nat) :
    (byteOfLevels [a, b, c, d, e, f, g, h]).getLsbD m = ([a, b, c, d, e, f, g, h].getD m false) := by
  by_cases hm : m < 8
  · revert a b c d e f g h m
    decide +kernel
  · rw [BitVec.getLsbD_of_ge _ _ (by omega)]
    simp only [List.getD_eq_getElem?_getD]
    rw [List.getElem?_eq_none (by simp; omega)]
    rfl

/-- The bits of a byte pushed one by one into a receiver between bytes complete that byte (R45). -/
theorem pushWr_bits (rx : Receiver) (h : rx.wrBits = []) (b : Byte) :
    (bitsOf b).foldl Receiver.pushWr rx = { rx with items := rx.items ++ [.wr b] } := by
  have hb := byteOfLevels_bitsOf b
  cases rx
  simp only at h
  subst h
  simp [bitsOf] at hb
  simp [bitsOf, Receiver.pushWr, hb]

/-- The same for a byte read. -/
theorem pushRd_bits (rx : Receiver) (h : rx.rdBits = []) (b : Byte) :
    (bitsOf b).foldl Receiver.pushRd rx = { rx with items := rx.items ++ [.rd b] } := by
  have hb := byteOfLevels_bitsOf b
  cases rx
  simp only at h
  subst h
  simp [bitsOf] at hb
  simp [bitsOf, Receiver.pushRd, hb]

@[simp] theorem pushWr_isOpen (rx : Receiver) (l : Level) : (rx.pushWr l).isOpen = rx.isOpen := by
  unfold Receiver.pushWr
  dsimp only
  split <;> rfl

@[simp] theorem pushWr_rdBits (rx : Receiver) (l : Level) : (rx.pushWr l).rdBits = rx.rdBits := by
  unfold Receiver.pushWr
  dsimp only
  split <;> rfl

@[simp] theorem pushRd_isOpen (rx : Receiver) (l : Level) : (rx.pushRd l).isOpen = rx.isOpen := by
  unfold Receiver.pushRd
  dsimp only
  split <;> rfl

/-! ### Writing -/

/-- One written bit in an open transaction with DIO an output (R66). -/
theorem writeBit_open (s : State) (l : Level) (ho : s.rx.isOpen = true) (hd : s.pins.dioDir = .output) :
    writeBit s l =
      { s with
        trace := s.trace ++ writeBitEvents l
        pins := { s.pins with clk := true, dioOut := l }
        rx := s.rx.pushWr l } := by
  simp [writeBit, act, pinsAfter, Receiver.hear, Peer.hear, ho, hd, writeBitEvents, Config.writeHalfUnits]

theorem writeBits_open (ls : List Level) (s : State) (ho : s.rx.isOpen = true) (hd : s.pins.dioDir = .output) :
    ls.foldl writeBit s =
      { s with
        trace := s.trace ++ ls.flatMap writeBitEvents
        pins := ls.foldl (fun p l => { p with clk := true, dioOut := l }) s.pins
        rx := ls.foldl Receiver.pushWr s.rx } := by
  induction ls generalizing s with
  | nil => simp
  | cons l ls ih =>
    rw [List.foldl_cons, writeBit_open s l ho hd, ih _ (by simpa using ho) (by simpa using hd)]
    simp

theorem writeByte_eq_bits (s : State) (b : Byte) : writeByte s b = (bitsOf b).foldl writeBit s := rfl

/-- One written byte in an open transaction between bytes, with DIO an output (R66). -/
theorem writeByte_open (s : State) (b : Byte) (ho : s.rx.isOpen = true) (hw : s.rx.wrBits = [])
    (hd : s.pins.dioDir = .output) :
    writeByte s b =
      { s with
        trace := s.trace ++ writeByteEvents b
        pins := { s.pins with clk := true, dioOut := b.getLsbD 7 }
        rx := { s.rx with items := s.rx.items ++ [.wr b] } } := by
  rw [writeByte_eq_bits, writeBits_open _ _ ho hd, pushWr_bits _ hw]
  rfl

theorem lastLevel_nil (l : Level) : lastLevel l [] = l := rfl

theorem lastLevel_cons (l : Level) (b : Byte) (bs : List Byte) :
    lastLevel l (b :: bs) = lastLevel (b.getLsbD 7) bs := by
  cases bs with
  | nil => rfl
  | cons c cs => simp [lastLevel, List.getLast?_eq_some_getLast]

theorem writeLoop_open (bs : List Byte) (s : State) (ho : s.rx.isOpen = true) (hw : s.rx.wrBits = [])
    (hd : s.pins.dioDir = .output) :
    bs.foldl writeByte s =
      { s with
        trace := s.trace ++ bs.flatMap writeByteEvents
        pins := { s.pins with clk := !bs.isEmpty || s.pins.clk, dioOut := lastLevel s.pins.dioOut bs }
        rx := { s.rx with items := s.rx.items ++ written bs } } := by
  induction bs generalizing s with
  | nil => simp [lastLevel_nil, written]
  | cons b bs ih =>
    rw [List.foldl_cons, writeByte_open s b ho hw hd, ih _ (by exact ho) (by exact hw) (by exact hd), lastLevel_cons]
    simp [written]

/-- WRITE_BYTES(bs) in an open transaction between bytes (R66). -/
theorem writeBytes_open (bs : List Byte) (s : State) (ho : s.rx.isOpen = true) (hw : s.rx.wrBits = []) :
    writeBytes bs s =
      { s with
        trace := s.trace ++ writeEvents bs
        pins := { s.pins with
          clk := !bs.isEmpty || s.pins.clk, dioDir := .output, dioOut := lastLevel s.pins.dioOut bs }
        rx := { s.rx with items := s.rx.items ++ written bs } } := by
  have h : act (.dioDir .output) s =
      { s with trace := s.trace ++ [.dioDir .output], pins := { s.pins with dioDir := .output } } := rfl
  rw [writeBytes, h, writeLoop_open _ _ (by exact ho) (by exact hw) (by rfl)]
  simp [writeEvents]

/-- SEND(bs) (R69) from any state: its events, the pins it leaves, no transaction open, and the peer's commit (R50). -/
theorem send_eq (bs : List Byte) (s : State) :
    send bs s =
      { s with
        trace := s.trace ++ sendEvents bs
        pins := { stb := true, clk := !bs.isEmpty || s.pins.clk, dioDir := .output,
                  dioOut := lastLevel s.pins.dioOut bs }
        rx := Receiver.closed
        peer := s.peer.commit (written bs) } := by
  have h : busStart s =
      { s with
        trace := s.trace ++ [.stb false]
        pins := { s.pins with stb := false }
        rx := { Receiver.closed with isOpen := true } } := rfl
  rw [send, h, writeBytes_open _ _ rfl rfl]
  simp [busStop, act, pinsAfter, Receiver.hear, Peer.hear, sendEvents, Receiver.closed]

/-! ### Reading -/

/-- What one sample can do (R27): some level, and at most the draw counter moves. -/
theorem sampleDio_cases (s : State) : ∃ l d, sampleDio s = (l, { s with draws := d }) := by
  unfold sampleDio
  split
  · exact ⟨_, s.draws, rfl⟩
  · exact ⟨_, _, rfl⟩
  · exact ⟨_, _, rfl⟩

/-- One bit read in an open transaction with DIO an input (R67). -/
theorem readBit_open (s : State) (ho : s.rx.isOpen = true) (hd : s.pins.dioDir = .input) :
    ∃ l d, readBit s =
      (l, { s with
        trace := s.trace ++ readBitEvents l
        pins := { s.pins with clk := true }
        rx := s.rx.pushRd l
        draws := d }) := by
  let s3 : State :=
    { s with trace := s.trace ++ [.clk false, .delay 1, .clk true], pins := { s.pins with clk := true } }
  have h3 : act (.clk true) (act (.delay Config.readHalfUnits) (act (.clk false) s)) = s3 := by
    simp [s3, act, pinsAfter, Receiver.hear, Peer.hear, hd, Config.readHalfUnits]
  obtain ⟨l, d, hl⟩ := sampleDio_cases s3
  refine ⟨l, d, ?_⟩
  unfold readBit
  dsimp only
  rw [h3, hl]
  simp [s3, act, pinsAfter, Receiver.hear, Peer.hear, ho, readBitEvents, Config.readHalfUnits]

theorem readBits_succ (k m : Nat) (b : Byte) (s : State) :
    readBits (k + 1) m b s = readBits k (m + 1) (b ||| (levelByte (readBit s).1 <<< m)) (readBit s).2 := rfl

/-- `k` bits read: the levels, and the byte they are ORed into from bit `m` up (R67). -/
theorem readBits_open (k m : Nat) (b : Byte) (s : State) (ho : s.rx.isOpen = true) (hd : s.pins.dioDir = .input) :
    ∃ (ls : List Level) (d : Nat), ls.length = k ∧ readBits k m b s =
      ((ls.zipIdx m).foldl (fun b x => b ||| (levelByte x.1 <<< x.2)) b,
        { s with
          trace := s.trace ++ ls.flatMap readBitEvents
          pins := { s.pins with clk := decide (k ≠ 0) || s.pins.clk }
          rx := ls.foldl Receiver.pushRd s.rx
          draws := d }) := by
  induction k generalizing m b s with
  | zero => exact ⟨[], s.draws, rfl, by simp [readBits]⟩
  | succ k ih =>
    obtain ⟨l, d, hl⟩ := readBit_open s ho hd
    obtain ⟨ls, d', hlen, hls⟩ := ih (m + 1) (b ||| (levelByte l <<< m)) (readBit s).2
      (by rw [hl]; simpa using ho) (by rw [hl]; exact hd)
    refine ⟨l :: ls, d', by simp [hlen], ?_⟩
    rw [readBits_succ, hl]
    rw [hl] at hls
    dsimp only at hls ⊢
    rw [hls]
    simp

theorem orBits_eq (a b c d e f g h : Level) :
    ([a, b, c, d, e, f, g, h].zipIdx 0).foldl (fun b x => b ||| (levelByte x.1 <<< x.2)) (0x00 : Byte) =
      byteOfLevels [a, b, c, d, e, f, g, h] := by
  revert a b c d e f g h
  decide +kernel

theorem bitsOf_byteOfLevels (a b c d e f g h : Level) :
    bitsOf (byteOfLevels [a, b, c, d, e, f, g, h]) = [a, b, c, d, e, f, g, h] := by
  revert a b c d e f g h
  decide +kernel

/-- One byte read in an open transaction between bytes, with DIO an input (R67): some byte, the samples being its bits. -/
theorem readByte_open (s : State) (ho : s.rx.isOpen = true) (hr : s.rx.rdBits = []) (hd : s.pins.dioDir = .input) :
    ∃ b d, readByte s =
      (b, { s with
        trace := s.trace ++ readByteEvents b
        pins := { s.pins with clk := true }
        rx := { s.rx with items := s.rx.items ++ [.rd b] }
        draws := d }) := by
  obtain ⟨ls, d, hlen, h⟩ := readBits_open 8 0 0x00 s ho hd
  match ls, hlen with
  | [l0, l1, l2, l3, l4, l5, l6, l7], _ =>
    refine ⟨byteOfLevels [l0, l1, l2, l3, l4, l5, l6, l7], d, ?_⟩
    have hp := pushRd_bits s.rx hr (byteOfLevels [l0, l1, l2, l3, l4, l5, l6, l7])
    rw [bitsOf_byteOfLevels] at hp
    unfold readByte
    rw [h, hp, orBits_eq]
    simp [act, pinsAfter, Receiver.hear, Peer.hear, readByteEvents, bitsOf_byteOfLevels, Config.readInterbyteUnits]

theorem readLoop_succ (n : Nat) (s : State) :
    readLoop (n + 1) s =
      ((readByte s).1 :: (readLoop n (readByte s).2).1, (readLoop n (readByte s).2).2) := rfl

theorem readLoop_open (n : Nat) (s : State) (ho : s.rx.isOpen = true) (hr : s.rx.rdBits = [])
    (hd : s.pins.dioDir = .input) :
    ∃ bs d, bs.length = n ∧ readLoop n s =
      (bs, { s with
        trace := s.trace ++ bs.flatMap readByteEvents
        pins := { s.pins with clk := decide (n ≠ 0) || s.pins.clk }
        rx := { s.rx with items := s.rx.items ++ bs.map .rd }
        draws := d }) := by
  induction n generalizing s with
  | zero => exact ⟨[], s.draws, rfl, by simp [readLoop]⟩
  | succ n ih =>
    obtain ⟨b, d, hb⟩ := readByte_open s ho hr hd
    obtain ⟨bs, d', hlen, hbs⟩ := ih (readByte s).2 (by rw [hb]; exact ho) (by rw [hb]; exact hr) (by rw [hb]; exact hd)
    refine ⟨b :: bs, d', by simp [hlen], ?_⟩
    rw [readLoop_succ, hbs, hb]
    simp

/-- READ_BYTES(n) in an open transaction between bytes (R67). -/
theorem readBytes_open (n : Nat) (s : State) (ho : s.rx.isOpen = true) (hr : s.rx.rdBits = []) :
    ∃ bs d, bs.length = n ∧ readBytes n s =
      (bs, { s with
        trace := s.trace ++ readEvents bs
        pins := { s.pins with clk := decide (n ≠ 0) || s.pins.clk, dioDir := .input }
        rx := { s.rx with items := s.rx.items ++ bs.map .rd }
        draws := d }) := by
  let s2 : State :=
    { s with trace := s.trace ++ [.dioDir .input, .delay 5], pins := { s.pins with dioDir := .input } }
  have h2 : act (.delay Config.readSettleUnits) (act (.dioDir .input) s) = s2 := by
    simp [s2, act, pinsAfter, Receiver.hear, Peer.hear, Config.readSettleUnits]
  obtain ⟨bs, d, hlen, h⟩ := readLoop_open n s2 ho hr rfl
  refine ⟨bs, d, hlen, ?_⟩
  unfold readBytes
  dsimp only
  rw [h2, h]
  simp [s2, readEvents]

/-- XFER(cmd, n) (R69) from any state: some n bytes, the events that carry them, and the peer's commit (R50). -/
theorem xfer_cases (cmd : Byte) (n : Nat) (s : State) :
    ∃ bs d, bs.length = n ∧ xfer cmd n s =
      (bs, { s with
        trace := s.trace ++ xferEvents cmd bs
        pins := { stb := true, clk := true, dioDir := .input, dioOut := cmd.getLsbD 7 }
        rx := Receiver.closed
        peer := s.peer.commit (.wr cmd :: bs.map .rd)
        draws := d }) := by
  have h : busStart s =
      { s with
        trace := s.trace ++ [.stb false]
        pins := { s.pins with stb := false }
        rx := { Receiver.closed with isOpen := true } } := rfl
  obtain ⟨bs, d, hlen, hr⟩ := readBytes_open n (writeBytes [cmd] (busStart s))
    (by rw [h, writeBytes_open _ _ rfl rfl]) (by rw [h, writeBytes_open _ _ rfl rfl]; rfl)
  refine ⟨bs, d, hlen, ?_⟩
  unfold xfer
  dsimp only
  rw [hr, h, writeBytes_open _ _ rfl rfl]
  simp [busStop, act, pinsAfter, Receiver.hear, Peer.hear, xferEvents, Receiver.closed, written, lastLevel]

/-! ### From any state -/

theorem writeBit_any (s : State) (l : Level) :
    ∃ rx, writeBit s l =
      { s with
        trace := s.trace ++ writeBitEvents l
        pins := { s.pins with clk := true, dioOut := l }
        rx := rx } := by
  refine ⟨(writeBit s l).rx, ?_⟩
  simp [writeBit, act, pinsAfter, Peer.hear, writeBitEvents, Config.writeHalfUnits]

theorem writeByte_any (s : State) (b : Byte) :
    ∃ rx, writeByte s b =
      { s with
        trace := s.trace ++ writeByteEvents b
        pins := { s.pins with clk := true, dioOut := b.getLsbD 7 }
        rx := rx } := by
  have h : ∀ (ls : List Level) (s : State), ∃ rx, ls.foldl writeBit s =
      { s with
        trace := s.trace ++ ls.flatMap writeBitEvents
        pins := ls.foldl (fun p l => { p with clk := true, dioOut := l }) s.pins
        rx := rx } := by
    intro ls
    induction ls with
    | nil => exact fun s => ⟨s.rx, by simp⟩
    | cons l ls ih =>
      intro s
      obtain ⟨rx, h⟩ := writeBit_any s l
      obtain ⟨rx', h'⟩ := ih (writeBit s l)
      refine ⟨rx', ?_⟩
      rw [List.foldl_cons, h', h]
      simp
  exact h (bitsOf b) s

/-- WRITE_BYTES(bs) from any state (R66): what it does to the trace and the pins; the peer hears nothing final. -/
theorem writeBytes_any (bs : List Byte) (s : State) :
    ∃ rx, writeBytes bs s =
      { s with
        trace := s.trace ++ writeEvents bs
        pins := { s.pins with
          clk := !bs.isEmpty || s.pins.clk, dioDir := .output, dioOut := lastLevel s.pins.dioOut bs }
        rx := rx } := by
  have h : ∀ (bs : List Byte) (s : State), ∃ rx, bs.foldl writeByte s =
      { s with
        trace := s.trace ++ bs.flatMap writeByteEvents
        pins := { s.pins with clk := !bs.isEmpty || s.pins.clk, dioOut := lastLevel s.pins.dioOut bs }
        rx := rx } := by
    intro bs
    induction bs with
    | nil => exact fun s => ⟨s.rx, by simp [lastLevel_nil]⟩
    | cons b bs ih =>
      intro s
      obtain ⟨rx, h⟩ := writeByte_any s b
      obtain ⟨rx', h'⟩ := ih (writeByte s b)
      refine ⟨rx', ?_⟩
      rw [List.foldl_cons, h', h, lastLevel_cons]
      simp
  obtain ⟨rx, hx⟩ := h bs (act (.dioDir .output) s)
  refine ⟨rx, ?_⟩
  rw [writeBytes, hx]
  simp [act, pinsAfter, Peer.hear, writeEvents]

theorem readBit_any (s : State) :
    ∃ l d rx, readBit s =
      (l, { s with
        trace := s.trace ++ readBitEvents l
        pins := { s.pins with clk := true }
        rx := rx
        draws := d }) := by
  obtain ⟨l, d, hl⟩ := sampleDio_cases (act (.clk true) (act (.delay Config.readHalfUnits) (act (.clk false) s)))
  refine ⟨l, d, (readBit s).2.rx, ?_⟩
  unfold readBit
  dsimp only
  rw [hl]
  simp [act, pinsAfter, Peer.hear, readBitEvents, Config.readHalfUnits]

theorem readByte_any (s : State) :
    ∃ b d rx, readByte s =
      (b, { s with
        trace := s.trace ++ readByteEvents b
        pins := { s.pins with clk := true }
        rx := rx
        draws := d }) := by
  have h : ∀ (k m : Nat) (b : Byte) (s : State), ∃ (ls : List Level) (d : Nat) (rx : Receiver),
      ls.length = k ∧ readBits k m b s =
      ((ls.zipIdx m).foldl (fun b x => b ||| (levelByte x.1 <<< x.2)) b,
        { s with
          trace := s.trace ++ ls.flatMap readBitEvents
          pins := { s.pins with clk := decide (k ≠ 0) || s.pins.clk }
          rx := rx
          draws := d }) := by
    intro k
    induction k with
    | zero => exact fun m b s => ⟨[], s.draws, s.rx, rfl, by simp [readBits]⟩
    | succ k ih =>
      intro m b s
      obtain ⟨l, d, rx, hl⟩ := readBit_any s
      obtain ⟨ls, d', rx', hlen, hls⟩ := ih (m + 1) (b ||| (levelByte (readBit s).1 <<< m)) (readBit s).2
      refine ⟨l :: ls, d', rx', by simp [hlen], ?_⟩
      rw [readBits_succ, hls, hl]
      simp
  obtain ⟨ls, d, rx, hlen, h⟩ := h 8 0 0x00 s
  match ls, hlen with
  | [l0, l1, l2, l3, l4, l5, l6, l7], _ =>
    refine ⟨byteOfLevels [l0, l1, l2, l3, l4, l5, l6, l7], d, (readByte s).2.rx, ?_⟩
    unfold readByte
    rw [h, orBits_eq]
    simp [act, pinsAfter, Peer.hear, readByteEvents, bitsOf_byteOfLevels, Config.readInterbyteUnits]

/-- READ_BYTES(n) from any state (R67): some n bytes, and what it does to the trace and the pins. -/
theorem readBytes_any (n : Nat) (s : State) :
    ∃ bs d rx, bs.length = n ∧ readBytes n s =
      (bs, { s with
        trace := s.trace ++ readEvents bs
        pins := { s.pins with clk := decide (n ≠ 0) || s.pins.clk, dioDir := .input }
        rx := rx
        draws := d }) := by
  have h : ∀ (n : Nat) (s : State), ∃ bs d rx, bs.length = n ∧ readLoop n s =
      (bs, { s with
        trace := s.trace ++ bs.flatMap readByteEvents
        pins := { s.pins with clk := decide (n ≠ 0) || s.pins.clk }
        rx := rx
        draws := d }) := by
    intro n
    induction n with
    | zero => exact fun s => ⟨[], s.draws, s.rx, rfl, by simp [readLoop]⟩
    | succ n ih =>
      intro s
      obtain ⟨b, d, rx, hb⟩ := readByte_any s
      obtain ⟨bs, d', rx', hlen, hbs⟩ := ih (readByte s).2
      refine ⟨b :: bs, d', rx', by simp [hlen], ?_⟩
      rw [readLoop_succ, hbs, hb]
      simp
  obtain ⟨bs, d, rx, hlen, h⟩ := h n (act (.delay Config.readSettleUnits) (act (.dioDir .input) s))
  refine ⟨bs, d, rx, hlen, ?_⟩
  unfold readBytes
  dsimp only
  rw [h]
  simp [act, pinsAfter, Peer.hear, readEvents, Config.readSettleUnits]

/-! ### The reference peer as the oracle (R49) -/

/-- One bit read while the reference peer answers and drives the line: its level, no draw. -/
theorem readBit_reference (s : State) (l : Level) (ho : s.rx.isOpen = true) (hd : s.pins.dioDir = .input)
    (hs : s.source = .reference) (hl : s.peer.drives s.rx = some l) :
    readBit s =
      (l, { s with
        trace := s.trace ++ readBitEvents l
        pins := { s.pins with clk := true }
        rx := s.rx.pushRd l }) := by
  simp [readBit, sampleDio, act, pinsAfter, Receiver.hear, Peer.hear, ho, hd, hs, hl, readBitEvents,
    Config.readHalfUnits]

/-- The bits of a read byte taken one after the other while the reference peer answers read byte `j`. -/
theorem readBits_reference (j k m : Nat) (b : Byte) (s : State) (c : Byte) (rest : List BusItem)
    (ho : s.rx.isOpen = true) (hd : s.pins.dioDir = .input) (hs : s.source = .reference)
    (hi : s.rx.items = .wr c :: rest) (hj : rest.length = j) (hj4 : j < 4) (hk : kindField c = 1)
    (hr : c.getLsbD 1 = true) (hm : s.rx.rdBits.length = m) (hmk : m + k ≤ 8)
    (hb : ∀ x, m ≤ x → b.getLsbD x = false) :
    (∀ x, x < m + k → (readBits k m b s).1.getLsbD x =
      if x < m then b.getLsbD x else (keyByte s.peer.regs.keys j).getLsbD x) := by
  induction k generalizing m b s with
  | zero =>
    intro x hx
    rw [if_pos (by omega)]
    rfl
  | succ k ih =>
    intro x hx
    have hdrv : s.peer.drives s.rx = some ((keyByte s.peer.regs.keys j).getLsbD m) := by
      simp [Peer.drives, hi, hk, hr, hj, hj4, hm]
    have h1 := readBit_reference s _ ho hd hs hdrv
    generalize hl : (keyByte s.peer.regs.keys j).getLsbD m = l at h1
    rw [readBits_succ, h1]
    dsimp only
    have hlb : ∀ x, (b ||| levelByte l <<< m).getLsbD x = if x = m then l else b.getLsbD x := by
      intro x
      rw [BitVec.getLsbD_or]
      by_cases hx : x = m
      · subst hx
        have := hb x (Nat.le_refl x)
        cases l <;> simp [levelByte, this]
        omega
      · have : (levelByte l <<< m).getLsbD x = false := by
          cases l
          · simp [levelByte]
          · simp only [levelByte, if_pos, BitVec.getLsbD_shiftLeft]
            by_cases h : x < m
            · simp [h]
            · have : x - m ≠ 0 := by omega
              simp [BitVec.getLsbD_one, this]
        simp [this, hx]
    by_cases h7 : k = 0
    · subst h7
      show BitVec.getLsbD (b ||| levelByte l <<< m) x = _
      rw [hlb]
      by_cases hx : x = m
      · subst hx; simp [hl]
      · rw [if_neg hx, if_pos (by omega)]
    · have hbits : (s.rx.rdBits ++ [l]).length ≠ 8 := by simp only [List.length_append, List.length_cons, List.length_nil]; omega
      have hpush : s.rx.pushRd l = { s.rx with rdBits := s.rx.rdBits ++ [l] } := if_neg hbits
      rw [hpush, ih (m + 1) _ _ (by exact ho) (by exact hd) (by exact hs) (by exact hi)
        (by simp only [List.length_append, List.length_cons, List.length_nil]; omega) (by omega)
        (fun y hy => by rw [hlb, if_neg (by omega)]; exact hb y (by omega)) x (by omega)]
      rw [hlb]
      by_cases hx : x = m
      · subst hx; simp [hl]
      · by_cases hx2 : x < m
        · simp [hx2, hx, Nat.lt_succ_of_lt hx2]
        · simp only [show ¬ x < m + 1 by omega, hx2, if_false]

/-- One byte read while the reference peer answers read byte `j` (R49). -/
theorem readByte_reference (s : State) (c : Byte) (rest : List BusItem) (j : Nat) (ho : s.rx.isOpen = true)
    (hd : s.pins.dioDir = .input) (hs : s.source = .reference) (hi : s.rx.items = .wr c :: rest)
    (hj : rest.length = j) (hj4 : j < 4) (hk : kindField c = 1) (hr : c.getLsbD 1 = true) (hm : s.rx.rdBits = []) :
    (readByte s).1 = keyByte s.peer.regs.keys j := by
  have h := readBits_reference j 8 0 0x00 s c rest ho hd hs hi hj hj4 hk hr (by simp [hm]) (by omega) (by simp)
  apply BitVec.eq_of_getLsbD_eq
  intro x hx
  have := h x (by omega)
  simpa [readByte] using this

/-- READ_BYTES after a read command while the reference peer answers: its key bytes (R49). -/
theorem readLoop_reference (n : Nat) (s : State) (c : Byte) (rest : List BusItem) (j : Nat) (ho : s.rx.isOpen = true)
    (hd : s.pins.dioDir = .input) (hs : s.source = .reference) (hi : s.rx.items = .wr c :: rest)
    (hj : rest.length = j) (hj4 : j + n ≤ 4) (hk : kindField c = 1) (hr : c.getLsbD 1 = true) (hm : s.rx.rdBits = []) :
    (readLoop n s).1 = (List.range' j n).map (keyByte s.peer.regs.keys) := by
  induction n generalizing s rest j with
  | zero => rfl
  | succ n ih =>
    obtain ⟨b, d, hb⟩ := readByte_open s ho hm hd
    have hk1 := readByte_reference s c rest j ho hd hs hi hj (by omega) hk hr hm
    rw [readLoop_succ]
    dsimp only
    rw [ih (readByte s).2 (rest ++ [.rd b]) (j + 1) (by rw [hb]; exact ho) (by rw [hb]; exact hd) (by rw [hb]; exact hs)
      (by rw [hb]; simp [hi]) (by simp [hj]) (by omega) (by rw [hb]; exact hm), hk1, hb]
    simp [List.range'_succ]

/-- XFER(0x42, 4) with the reference peer answering (R49): the four key bytes. -/
theorem xfer_reference (s : State) (hs : s.source = .reference) :
    (xfer cmdDataRead 4 s).1 =
      [keyByte s.peer.regs.keys 0, keyByte s.peer.regs.keys 1, keyByte s.peer.regs.keys 2, keyByte s.peer.regs.keys 3] := by
  have h : busStart s =
      { s with
        trace := s.trace ++ [.stb false]
        pins := { s.pins with stb := false }
        rx := { Receiver.closed with isOpen := true } } := rfl
  have := readLoop_reference 4
    (act (.delay Config.readSettleUnits) (act (.dioDir .input) (writeBytes [cmdDataRead] (busStart s)))) cmdDataRead [] 0
    (by rw [h, writeBytes_open _ _ rfl rfl]; rfl) rfl (by rw [h, writeBytes_open _ _ rfl rfl]; exact hs)
    (by rw [h, writeBytes_open _ _ rfl rfl]; rfl) rfl (by omega) (by decide) (by decide)
    (by rw [h, writeBytes_open _ _ rfl rfl]; rfl)
  have hp : (act (.delay Config.readSettleUnits) (act (.dioDir .input) (writeBytes [cmdDataRead] (busStart s)))).peer =
      s.peer := by
    rw [h, writeBytes_open _ _ rfl rfl]
    rfl
  rw [hp] at this
  exact this

end Sys2Proof.Laws
end

