-- ==== Sys2Proof/Laws/Encoding.lean ====
section
/-! SUPPORT. The fields of a host word (spec/30_encoding.md R59): what the encoder puts in them is what the decoder takes
out, and a word with its reserved fields 0 is the one its fields make. -/

namespace Sys2Proof.Laws

theorem getLsbD_hostWord (op : BitVec 4) (a b : Byte) (k : Nat) :
    (hostWord op a b).getLsbD k =
      if k < 8 then op.getLsbD k else if k < 16 then a.getLsbD (k - 8) else b.getLsbD (k - 16) := by
  simp only [hostWord, BitVec.getLsbD_or, BitVec.getLsbD_shiftLeft, BitVec.getLsbD_setWidth]
  by_cases h32 : k < 32
  · by_cases h8 : k < 8
    · simp [h8, h32, show k < 16 by omega]
    · rw [BitVec.getLsbD_of_ge op k (by omega)]
      by_cases h16 : k < 16
      · simp [h8, h16, h32, show k - 8 < 32 by omega]
      · rw [BitVec.getLsbD_of_ge a (k - 8) (by omega)]
        simp [h8, h16, h32, show k - 16 < 32 by omega]
  · rw [BitVec.getLsbD_of_ge b (k - 16) (by omega)]
    simp [h32, show ¬k < 8 by omega, show ¬k < 16 by omega]

@[simp] theorem opField_hostWord (op : BitVec 4) (a b : Byte) : opField (hostWord op a b) = op := by
  apply BitVec.eq_of_getLsbD_eq
  intro k hk
  simp only [opField, BitVec.getLsbD_extractLsb', getLsbD_hostWord]
  simp [hk, show k < 8 by omega]

@[simp] theorem aField_hostWord (op : BitVec 4) (a b : Byte) : aField (hostWord op a b) = a := by
  apply BitVec.eq_of_getLsbD_eq
  intro k hk
  simp only [aField, BitVec.getLsbD_extractLsb', getLsbD_hostWord]
  simp [hk, show 8 + k < 16 by omega]

@[simp] theorem bField_hostWord (op : BitVec 4) (a b : Byte) : bField (hostWord op a b) = b := by
  apply BitVec.eq_of_getLsbD_eq
  intro k hk
  simp only [bField, BitVec.getLsbD_extractLsb', getLsbD_hostWord]
  simp [hk, show ¬16 + k < 8 by omega]

@[simp] theorem reservedZero_hostWord (op : BitVec 4) (a b : Byte) : reservedZero (hostWord op a b) = true := by
  simp only [reservedZero, Bool.and_eq_true, beq_iff_eq]
  constructor
  · apply BitVec.eq_of_getLsbD_eq
    intro k hk
    simp only [BitVec.getLsbD_extractLsb', getLsbD_hostWord]
    rw [BitVec.getLsbD_of_ge op _ (by omega)]
    simp [show 4 + k < 8 by omega]
  · apply BitVec.eq_of_getLsbD_eq
    intro k hk
    simp only [BitVec.getLsbD_extractLsb', getLsbD_hostWord]
    rw [BitVec.getLsbD_of_ge b _ (by omega)]
    simp [show ¬24 + k < 8 by omega, show ¬24 + k < 16 by omega]

theorem hostWord_of_fields (w : Word) (h : reservedZero w = true) :
    hostWord (opField w) (aField w) (bField w) = w := by
  simp only [reservedZero, Bool.and_eq_true, beq_iff_eq] at h
  obtain ⟨hlo, hhi⟩ := h
  have lo : ∀ k, 4 ≤ k → k < 8 → w.getLsbD k = false := fun k h4 h8 => by
    have := congrArg (fun v => v.getLsbD (k - 4)) hlo
    simpa [BitVec.getLsbD_extractLsb', show k - 4 < 4 by omega, show 4 + (k - 4) = k by omega] using this
  have hi : ∀ k, 24 ≤ k → k < 32 → w.getLsbD k = false := fun k h24 h32 => by
    have := congrArg (fun v => v.getLsbD (k - 24)) hhi
    simpa [BitVec.getLsbD_extractLsb', show k - 24 < 8 by omega, show 24 + (k - 24) = k by omega] using this
  apply BitVec.eq_of_getLsbD_eq
  intro k hk
  simp only [getLsbD_hostWord, opField, aField, bField, BitVec.getLsbD_extractLsb']
  by_cases h4 : k < 4
  · simp [h4, show k < 8 by omega]
  by_cases h8 : k < 8
  · rw [lo k (by omega) h8]
    simp [h4, h8]
  by_cases h16 : k < 16
  · simp [h8, h16, show k - 8 < 8 by omega, show 8 + (k - 8) = k by omega]
  by_cases h24 : k < 24
  · simp [h8, h16, show k - 16 < 8 by omega, show 16 + (k - 16) = k by omega]
  · rw [hi k (by omega) hk]
    simp [h8, h16, show ¬k - 16 < 8 by omega]

end Sys2Proof.Laws
end

