-- ==== Sys2Proof/Laws/Exec.lean ====
section
/-! SUPPORT. What each shared operation of the families does, once, and what an instruction can do (`exec_cases`). -/

namespace Sys2Proof.Laws

open Sys2Proof.Machine Sys2Proof.Safety

theorem cmdAddr_start (p : Byte) (h : p.toNat ≤ 15) : cmdAddr (startAddress p) = 0xC0 ||| p := by
  have : ∀ p : Byte, p.toNat ≤ 15 → cmdAddr (startAddress p) = 0xC0 ||| p := by decide +kernel
  exact this p h

theorem cmdAddr_toNat (a : BitVec 4) : (cmdAddr a).toNat = 0xC0 + a.toNat := by
  revert a
  decide +kernel

theorem kindField_cmdAddr (a : BitVec 4) : (kindField (cmdAddr a)).toNat = 3 := by
  revert a
  decide +kernel

theorem ptrField_cmdAddr (a : BitVec 4) : (ptrField (cmdAddr a)).val = a.toNat := by
  revert a
  decide +kernel

theorem cmdAddr_bit7 (a : BitVec 4) : (cmdAddr a).getLsbD 7 = true := by
  revert a
  decide +kernel

theorem startAddress_toNat (p : Byte) (h : p.toNat ≤ 15) : (startAddress p).toNat = p.toNat := by
  simp only [startAddress, BitVec.extractLsb'_toNat, Nat.shiftRight_zero]
  omega

theorem emitted_cmdAddr (a : BitVec 4) : emittedCommand (cmdAddr a) = true := by
  revert a
  decide +kernel

theorem emitted_cmdDisp (br : Byte) (on : Bool) : emittedCommand (cmdDisp br on) = true := by
  revert br on
  decide +kernel

@[simp] theorem writtenBytes_written (bs : List Byte) : writtenBytes (written bs) = bs := by
  induction bs with
  | nil => rfl
  | cons b bs ih =>
    show b :: writtenBytes (written bs) = b :: bs
    rw [ih]

/-- DISPLAY_WRITE(P, gs) (R77) from any state. -/
theorem displayWrite_eq (a : BitVec 4) (gs : List Byte) (s : State) :
    displayWrite a gs s =
      { s with
        trace := s.trace ++ (sendEvents [0x40] ++ sendEvents (cmdAddr a :: gs))
        pins := { stb := true, clk := true, dioDir := .output, dioOut := lastLevel true gs }
        rx := Receiver.closed
        peer := (s.peer.dataCommand 0x40).addrCommand (cmdAddr a) gs } := by
  have h1 : s.peer.commit (written [cmdDataWrite]) = s.peer.dataCommand 0x40 := rfl
  have h2 : ∀ p : Peer, p.commit (written (cmdAddr a :: gs)) = p.addrCommand (cmdAddr a) gs := by
    intro p
    show (match (kindField (cmdAddr a)).toNat with
      | 1 => p.dataCommand (cmdAddr a)
      | 2 => p.dispCommand (cmdAddr a)
      | 3 => p.addrCommand (cmdAddr a) (writtenBytes (written gs))
      | _ => p) = _
    rw [kindField_cmdAddr, writtenBytes_written]
    rfl
  have h3 : ∀ l, lastLevel l (cmdAddr a :: gs) = lastLevel true gs := fun l => by
    rw [lastLevel_cons, cmdAddr_bit7]
  rw [displayWrite, send_eq, send_eq]
  dsimp only
  rw [h2, h1, h3]
  simp [cmdDataWrite]

/-- What DISPLAY_WRITE leaves in the peer (R48): the bytes at their addresses, the rest as before. -/
theorem displayWrite_peer (p : Peer) (a : BitVec 4) (gs : List Byte) (h : a.toNat + gs.length ≤ 16) :
    (∀ x, ((p.dataCommand 0x40).addrCommand (cmdAddr a) gs).ram.read x =
      if a.toNat ≤ x ∧ x < a.toNat + gs.length then gs[x - a.toNat]? else p.ram.read x) ∧
    ∀ q : Fin 17, q.val = a.toNat + gs.length →
      ((p.dataCommand 0x40).addrCommand (cmdAddr a) gs).regs =
        { p.regs with mode := .write, amode := .auto, tmode := .normal, ptr := q } := by
  have hp := ptrField_cmdAddr a
  obtain ⟨h1, h2⟩ := stores_auto gs
    { p.dataCommand 0x40 with regs := { (p.dataCommand 0x40).regs with ptr := ptrField (cmdAddr a) } } rfl
    (by rw [hp]; exact h)
  refine ⟨fun x => ?_, fun q hq => ?_⟩
  · have := h1 x
    rw [hp] at this
    exact this
  · exact h2 q (by rw [hp]; exact hq)

/-- SET_MULTI (R82) once its checks are passed. -/
theorem setMulti_ready (p n : Byte) (gs : List Byte) (s : State) (hl : s.life = .ready) (hr : inRange p n gs = true) :
    setMulti p n gs s = .next (returnOk none (match s.dtype with
      | .cathode => setCathode p gs s
      | .anode => setAnode p gs s)) := by
  exact (if_pos hl).trans (if_pos hr)

theorem inRange_iff (p n : Byte) (v : List Byte) :
    inRange p n v = true ↔ p.toNat ≤ 15 ∧ p.toNat + n.toNat ≤ 16 ∧ v.length = n.toNat := by
  simp [inRange]

theorem inRange_map (p n : Byte) (v : List Byte) (f : Byte → Byte) : inRange p n (v.map f) = inRange p n v := by
  simp [inRange]

/-- The glyph operations are SET_MULTI of the encoded values (R98, R100). -/
theorem setMultiGlyphs_eq (f : Byte → Byte) (p n : Byte) (v : List Byte) (s : State) :
    setMultiGlyphs f p n v s = setMulti p n (v.map f) s := by
  unfold setMultiGlyphs setMulti whenReady
  rw [inRange_map]
  by_cases hl : s.life = .ready
  · by_cases hr : inRange p n v = true
    · simp [hl, hr]
    · simp [hl, hr]
  · simp [hl]

/-- What SET_MULTI can do (R82): refuse, or write on one of the two paths. -/
theorem setMulti_cases (p n : Byte) (gs : List Byte) (s : State) :
    (s.life ≠ .ready ∧ setMulti p n gs s = .next (refuse .notReady s)) ∨
    (s.life = .ready ∧ inRange p n gs = false ∧ setMulti p n gs s = .next (refuse .badRange s)) ∨
    (s.life = .ready ∧ inRange p n gs = true ∧ s.dtype = .cathode ∧
      setMulti p n gs s = .next (returnOk none (setCathode p gs s))) ∨
    (s.life = .ready ∧ inRange p n gs = true ∧ s.dtype = .anode ∧
      setMulti p n gs s = .next (returnOk none (setAnode p gs s))) := by
  by_cases hl : s.life = .ready
  · by_cases hr : inRange p n gs = true
    · rcases hd : s.dtype with _ | _
      · exact .inr (.inr (.inl ⟨hl, hr, rfl, by rw [setMulti_ready _ _ _ _ hl hr, hd]⟩))
      · exact .inr (.inr (.inr ⟨hl, hr, rfl, by rw [setMulti_ready _ _ _ _ hl hr, hd]⟩))
    · have hr : inRange p n gs = false := by simpa using hr
      exact .inr (.inl ⟨hl, hr, by simp [setMulti, whenReady, hl, hr]⟩)
  · exact .inl ⟨hl, by simp [setMulti, whenReady, hl]⟩

/-- SCAN_KEYS (R108): some four bytes, the transaction that reads them, and a mask over them. -/
theorem scanKeys_cases (s : State) :
    ∃ bs d h, bs.length = 4 ∧ (xfer cmdDataRead 4 s).1 = bs ∧ scanKeys s =
      { s with
        trace := s.trace ++ xferEvents 0x42 bs
        pins := { stb := true, clk := true, dioDir := .input, dioOut := false }
        rx := Receiver.closed
        peer := s.peer.dataCommand 0x42
        draws := d
        report := .returned .ok (some (scanMask h bs)) } := by
  obtain ⟨bs, d, hlen, h⟩ := xfer_cases cmdDataRead 4 s
  refine ⟨bs, d + 1, Config.maskHigh d, hlen, by rw [h], ?_⟩
  unfold scanKeys
  rw [h]
  rfl

/-- INITIALIZE (R109) with no transaction open. -/
theorem bringUp_eq (d : DisplayType) (s : State) :
    bringUp d s =
      { s with
        life := .ready
        dtype := d
        shadow := Vector.replicate 16 0
        pins := { stb := true, clk := true, dioDir := .output, dioOut := true }
        trace := s.trace ++ initEvents
        rx := Receiver.closed
        peer := if s.rx.isOpen then s.peer.commit s.rx.items else s.peer
        report := .returned .ok none } := by
  simp [bringUp, returnOk, act, pinsAfter, Receiver.hear, Peer.hear, Receiver.closed, initEvents]
  rfl

/-- DEINITIALIZE (R110). -/
theorem release_eq (s : State) :
    release s =
      { s with
        life := .deinit
        pins := Config.inert
        trace := s.trace ++ [.platDeinit]
        report := .returned .ok none } := rfl

/-- What an instruction can do. -/
theorem exec_cases (i : Instr) (s : State) :
    ∃ t, exec i s = .next t ∧
      ((∃ r, i.isHostOp = true ∧ t = refuse r s) ∨
       (∃ d, isInit i = true ∧ t = bringUp d s) ∨
       (i = .deinit ∧ s.life = .ready ∧ t = release s) ∨
       (∃ c, i.isHostOp = false ∧ emittedCommand c = true ∧ t = send [c] s) ∨
       (∃ br on, i = .config br on ∧ s.life = .ready ∧ t = returnOk none (send [cmdDisp br (onFlag on)] s)) ∨
       (∃ p gs, isSetOp i = true ∧ s.life = .ready ∧ s.dtype = .cathode ∧ p.toNat ≤ 15 ∧ p.toNat + gs.length ≤ 16 ∧
         t = returnOk none (setCathode p gs s)) ∨
       (∃ p gs, isSetOp i = true ∧ s.life = .ready ∧ s.dtype = .anode ∧ p.toNat ≤ 15 ∧ p.toNat + gs.length ≤ 16 ∧
         t = returnOk none (setAnode p gs s)) ∨
       (i = .scan ∧ s.life = .ready ∧ t = scanKeys s)) := by
  have hset : ∀ (i : Instr) (p n : Byte) (gs : List Byte), i.isHostOp = true → isSetOp i = true →
      exec i s = setMulti p n gs s → ∃ t, exec i s = .next t ∧
      ((∃ r, i.isHostOp = true ∧ t = refuse r s) ∨
       (∃ d, isInit i = true ∧ t = bringUp d s) ∨
       (i = .deinit ∧ s.life = .ready ∧ t = release s) ∨
       (∃ c, i.isHostOp = false ∧ emittedCommand c = true ∧ t = send [c] s) ∨
       (∃ br on, i = .config br on ∧ s.life = .ready ∧ t = returnOk none (send [cmdDisp br (onFlag on)] s)) ∨
       (∃ p gs, isSetOp i = true ∧ s.life = .ready ∧ s.dtype = .cathode ∧ p.toNat ≤ 15 ∧ p.toNat + gs.length ≤ 16 ∧
         t = returnOk none (setCathode p gs s)) ∨
       (∃ p gs, isSetOp i = true ∧ s.life = .ready ∧ s.dtype = .anode ∧ p.toNat ≤ 15 ∧ p.toNat + gs.length ≤ 16 ∧
         t = returnOk none (setAnode p gs s)) ∨
       (i = .scan ∧ s.life = .ready ∧ t = scanKeys s)) := by
    intro i p n gs hh hs he
    rcases setMulti_cases p n gs s with ⟨-, h⟩ | ⟨-, -, h⟩ | ⟨hl, hr, hd, h⟩ | ⟨hl, hr, hd, h⟩
    · exact ⟨_, he.trans h, .inl ⟨_, hh, rfl⟩⟩
    · exact ⟨_, he.trans h, .inl ⟨_, hh, rfl⟩⟩
    · obtain ⟨h1, h2, h3⟩ := (inRange_iff p n gs).1 hr
      exact ⟨_, he.trans h, .inr (.inr (.inr (.inr (.inr (.inl ⟨p, gs, hs, hl, hd, h1, by omega, rfl⟩)))))⟩
    · obtain ⟨h1, h2, h3⟩ := (inRange_iff p n gs).1 hr
      exact ⟨_, he.trans h, .inr (.inr (.inr (.inr (.inr (.inr (.inl ⟨p, gs, hs, hl, hd, h1, by omega, rfl⟩))))))⟩
  cases i with
  | dataWrite => exact ⟨_, rfl, .inr (.inr (.inr (.inl ⟨cmdDataWrite, rfl, rfl, rfl⟩)))⟩
  | dataRead => exact ⟨_, rfl, .inr (.inr (.inr (.inl ⟨cmdDataRead, rfl, rfl, rfl⟩)))⟩
  | addrSet a => exact ⟨_, rfl, .inr (.inr (.inr (.inl ⟨cmdAddr a, rfl, emitted_cmdAddr a, rfl⟩)))⟩
  | dispCtrl on br =>
    exact ⟨_, rfl, .inr (.inr (.inr (.inl ⟨cmdDisp (br.setWidth 8) on, rfl, emitted_cmdDisp _ _, rfl⟩)))⟩
  | init t =>
    show ∃ x, execInit t s = .next x ∧ _
    unfold execInit
    split
    next d _ => exact ⟨_, rfl, .inr (.inl ⟨d, rfl, rfl⟩)⟩
    next => exact ⟨_, rfl, .inl ⟨_, rfl, rfl⟩⟩
  | deinit =>
    show ∃ x, execDeinit s = .next x ∧ _
    unfold execDeinit whenReady
    split
    next h => exact ⟨_, rfl, .inr (.inr (.inl ⟨rfl, h, rfl⟩))⟩
    next => exact ⟨_, rfl, .inl ⟨_, rfl, rfl⟩⟩
  | config br on =>
    show ∃ x, execConfig br on s = .next x ∧ _
    unfold execConfig whenReady
    split
    next h => exact ⟨_, rfl, .inr (.inr (.inr (.inr (.inl ⟨br, on, rfl, h, rfl⟩))))⟩
    next => exact ⟨_, rfl, .inl ⟨_, rfl, rfl⟩⟩
  | sets p g => exact hset _ p 1 [g] rfl rfl rfl
  | setm p n v => exact hset _ p n v rfl rfl rfl
  | setsHex p v => exact hset _ p 1 ([v].map (hexGlyph s.rom)) rfl rfl (setMultiGlyphs_eq _ _ _ _ _)
  | setmHex p n v => exact hset _ p n (v.map (hexGlyph s.rom)) rfl rfl (setMultiGlyphs_eq _ _ _ _ _)
  | setsChar p v => exact hset _ p 1 ([v].map (charGlyph s.rom)) rfl rfl (setMultiGlyphs_eq _ _ _ _ _)
  | setmChar p n v => exact hset _ p n (v.map (charGlyph s.rom)) rfl rfl (setMultiGlyphs_eq _ _ _ _ _)
  | scan =>
    show ∃ x, execScan s = .next x ∧ _
    unfold execScan whenReady
    split
    next h => exact ⟨_, rfl, .inr (.inr (.inr (.inr (.inr (.inr (.inr ⟨rfl, h, rfl⟩))))))⟩
    next => exact ⟨_, rfl, .inl ⟨_, rfl, rfl⟩⟩

end Sys2Proof.Laws
end

