-- ==== Sys2Proof/Laws/Glyph.lean ====
section
/-! SUPPORT. The entries of the glyph tables R91 makes of a HEX_GLYPH and an OVERSCORE_CODE. -/

namespace Sys2Proof.Laws

open Sys2Proof.Machine

@[simp] theorem hexAt_ofParams (hex : Vector Byte 16) (overscore : Byte) (c : Nat) :
    (GlyphRom.ofParams hex overscore).hexAt c = hex.toList.getD c 0x00 := rfl

theorem charAt_ofParams (hex : Vector Byte 16) (overscore : Byte) (c : Nat) (h : c < 128) :
    (GlyphRom.ofParams hex overscore).charAt c = charDefaultAt hex overscore (BitVec.ofNat 8 c) := by
  simp [GlyphRom.charAt, GlyphRom.ofParams, Vector.toList, h]

end Sys2Proof.Laws
end

