-- ==== Sys2Proof/Laws/PerInstr.lean ====
section
/-! SUPPORT. Per instruction: its encoding carries the fixed bits of its row of spec/opcode_table.json. -/

namespace Sys2Proof.Laws.TableRow

/-- The bits of an encoded instruction as the table numbers them; the payload is above them. -/
def bits : Encoded → Word
  | .wire b => b.setWidth 32
  | .host w _ => w

/-- The row's mask. -/
def mask : Instr → Word
  | .dataWrite | .dataRead => 0xFF
  | .addrSet _ | .dispCtrl _ _ => 0xF0
  | .init _ => 0xFFFF00FF
  | .deinit | .scan => 0xFFFFFFFF
  | .config _ _ | .sets _ _ | .setm _ _ _ | .setsHex _ _ | .setmHex _ _ _ | .setsChar _ _ | .setmChar _ _ _ =>
    0xFF0000FF

/-- The row's match. -/
def pattern : Instr → Word
  | .dataWrite => 0x40
  | .dataRead => 0x42
  | .addrSet _ => 0xC0
  | .dispCtrl _ _ => 0x80
  | .init _ => 0x0
  | .deinit => 0x1
  | .config _ _ => 0x2
  | .sets _ _ => 0x3
  | .setm _ _ _ => 0x4
  | .setsHex _ _ => 0x5
  | .setmHex _ _ _ => 0x6
  | .setsChar _ _ => 0x7
  | .setmChar _ _ _ => 0x8
  | .scan => 0x9

/-- The encoding matches the row. -/
def Statement (i : Instr) : Prop := bits (encode i) &&& mask i = pattern i

theorem hostWord_and (op : BitVec 4) (a b : Byte) : hostWord op a b &&& 0xFF0000FF = op.setWidth 32 := by
  apply BitVec.eq_of_getLsbD_eq
  intro k hk
  have hm : ∀ k : Nat, k < 32 → (0xFF0000FF : Word).getLsbD k = (decide (k < 8) || decide (24 ≤ k)) := by decide +kernel
  simp only [hostWord, BitVec.getLsbD_and, BitVec.getLsbD_or, BitVec.getLsbD_shiftLeft, BitVec.getLsbD_setWidth, hm k hk,
    hk, decide_true, Bool.true_and]
  by_cases h8 : k < 8
  · simp [h8, show k < 16 by omega]
  · by_cases h24 : 24 ≤ k
    · rw [BitVec.getLsbD_of_ge a (k - 8) (by omega), BitVec.getLsbD_of_ge b (k - 16) (by omega)]
      simp [h8, h24]
    · rw [BitVec.getLsbD_of_ge op k (by omega)]
      simp [h8, h24]

theorem dataWrite : Statement .dataWrite := by unfold Statement; decide

theorem dataRead : Statement .dataRead := by unfold Statement; decide

theorem addrSet (a : BitVec 4) : Statement (.addrSet a) := by
  have : ∀ a : BitVec 4, bits (encode (.addrSet a)) &&& 0xF0 = 0xC0 := by decide +kernel
  exact this a

theorem dispCtrl (on : Bool) (br : BitVec 3) : Statement (.dispCtrl on br) := by
  have : ∀ (on : Bool) (br : BitVec 3), bits (encode (.dispCtrl on br)) &&& 0xF0 = 0x80 := by decide +kernel
  exact this on br

theorem init (t : Byte) : Statement (.init t) := by
  have : ∀ t : Byte, bits (encode (.init t)) &&& 0xFFFF00FF = 0x0 := by decide +kernel
  exact this t

theorem deinit : Statement .deinit := by unfold Statement; decide

theorem config (br on : Byte) : Statement (.config br on) := hostWord_and 0x2 br on

theorem sets (p g : Byte) : Statement (.sets p g) := hostWord_and 0x3 p g

theorem setm (p n : Byte) (payload : List Byte) : Statement (.setm p n payload) := hostWord_and 0x4 p n

theorem setsHex (p v : Byte) : Statement (.setsHex p v) := hostWord_and 0x5 p v

theorem setmHex (p n : Byte) (payload : List Byte) : Statement (.setmHex p n payload) := hostWord_and 0x6 p n

theorem setsChar (p v : Byte) : Statement (.setsChar p v) := hostWord_and 0x7 p v

theorem setmChar (p n : Byte) (payload : List Byte) : Statement (.setmChar p n payload) := hostWord_and 0x8 p n

theorem scan : Statement .scan := by unfold Statement; decide

end Sys2Proof.Laws.TableRow
end

