-- ==== Sys2Proof/Laws/Shadow.lean ====
section
/-! SUPPORT. SHADOW's primitives (spec/20_memory.md R31), one bit of a lane update (42_display_register.md R79), and one bit
of the key mask (44_key_scan.md R103). -/

namespace Sys2Proof.Laws

open Sys2Proof.Machine

theorem shadow_get_put (sh : Shadow) (i j : Nat) (v : Byte) (hi : i < 16) :
    Shadow.get (Shadow.put sh i v) j = if j = i then v else Shadow.get sh j := by
  simp only [Shadow.get, Shadow.put, Vector.toList_setIfInBounds, List.getD_eq_getElem?_getD, List.getElem?_set]
  by_cases h : i = j
  · subst h
    simp [hi]
  · simp [h, Ne.symm h]

@[simp] theorem memRead_length (sh : Shadow) (i n : Nat) : (memRead sh i n).length = n := by simp [memRead]

theorem memRead_all (sh : Shadow) : memRead sh 0 16 = (List.range 16).map (Shadow.get sh) := by simp [memRead]

/-- Bit c of lane i after a lane update is the level put there, every other bit of every lane is as before (R79). -/
theorem laneUpdate_bit (sh : Shadow) (i j b c : Nat) (l : Level) (hi : i < 16) (hb : b < 8) (hc : c < 8) :
    (Shadow.get (laneUpdate sh i b l) j).getLsbD c =
      if j = i ∧ c = b then l else (Shadow.get sh j).getLsbD c := by
  have one : ∀ b, b < 8 → ∀ c, c < 8 → ((0x01 : Byte) <<< b).getLsbD c = decide (c = b) := by decide +kernel
  have lev : ∀ b, b < 8 → ∀ c, c < 8 → ∀ l, (levelByte l <<< b).getLsbD c = (decide (c = b) && l) := by decide +kernel
  rw [laneUpdate, shadow_get_put _ _ _ _ hi]
  by_cases hj : j = i
  · subst hj
    rw [if_pos rfl, BitVec.getLsbD_or, BitVec.getLsbD_and, BitVec.getLsbD_not, one b hb c hc, lev b hb c hc l]
    by_cases h : c = b <;> simp [h, hc, hb]
  · simp [hj]

/-- Bit k of a mask after one bit of it is put in (R103). -/
theorem maskBit_get (i : Nat) (l : Bool) (m : Word) (k : Nat) (hk : k < 32) :
    (maskBit i l m).getLsbD k = (m.getLsbD k || (decide (i = k) && l)) := by
  have h : (bitWord l <<< i).getLsbD k = (decide (i = k) && l) := by
    rw [BitVec.getLsbD_shiftLeft]
    cases l with
    | false => simp [bitWord]
    | true =>
      by_cases h : i = k
      · subst h
        simp [bitWord, hk]
      · by_cases h2 : k < i
        · simp [h2, h]
        · simp [bitWord, h, hk, h2]
          omega
  rw [maskBit, BitVec.getLsbD_or, h]

end Sys2Proof.Laws
end

