-- ==== Sys2Proof/Laws/Step.lean ====
section
/-! SUPPORT. What one step can do, once, and what it adds to the trace. -/

namespace Sys2Proof.Laws

open Sys2Proof.Machine Sys2Proof.Safety

theorem newEvents_of_append (s t : State) (es : List Event) (h : t.trace = s.trace ++ es) : newEvents s t = es := by
  simp [newEvents, h]

/-- A step that answers a next state: nothing issued and nothing done, or the next input taken off the list and refused,
stored as the key matrix, or run. -/
theorem step_cases (s t : State) (h : step s = .next t) :
    (s.inputs = [] ∧ t = s) ∨
    ∃ x rest, s.inputs = x :: rest ∧
      ((∃ r, t = refuse r { s with inputs := rest }) ∨
       (∃ k, t = { s with inputs := rest, peer := { s.peer with regs := { s.peer.regs with keys := k } } }) ∨
       ∃ i, exec i { s with inputs := rest } = .next t) := by
  unfold step fetch at h
  cases hx : s.inputs with
  | nil =>
    simp only [hx, Host.Outcome.next.injEq] at h
    exact .inl ⟨rfl, h.symm⟩
  | cons x rest =>
    refine .inr ⟨x, rest, rfl, ?_⟩
    rw [hx] at h
    cases x with
    | call w payload overlaps =>
      cases overlaps with
      | true =>
        simp only [issue, if_true, Host.Outcome.next.injEq] at h
        exact .inl ⟨_, h.symm⟩
      | false =>
        simp only [issue, Bool.false_eq_true, if_false] at h
        cases hd : decodeHost w payload with
        | ok i =>
          simp only [hd] at h
          exact .inr (.inr ⟨i, h⟩)
        | error e =>
          simp only [hd, Host.Outcome.next.injEq] at h
          exact .inl ⟨_, h.symm⟩
    | command b =>
      simp only [issue] at h
      cases hd : decodeWire b with
      | ok i =>
        simp only [hd] at h
        exact .inr (.inr ⟨i, h⟩)
      | error e => simp [hd] at h
    | keys k =>
      simp only [issue, Host.Outcome.next.injEq] at h
      exact .inr (.inl ⟨k, h.symm⟩)

end Sys2Proof.Laws
end

