-- ==== Sys2Proof/Tests/Slice0.lean ====
section
/-! SUPPORT. Tests on fixed values, their expected results from spec/95_test_vectors.md and the worked examples of the
rules, and one witness for each statement that has hypotheses. -/

namespace Sys2Proof.Tests

open Sys2Proof.Machine Sys2Proof.Safety

/-! ### Helpers -/

/-- A READY handle with the idle levels of R29, of the given display type, an all-zero shadow. -/
def ready (d : DisplayType) : State :=
  { State.reset with
    life := .ready, dtype := d, pins := { stb := true, clk := true, dioDir := .output, dioOut := true } }

/-- A READY ANODE handle with the given shadow. -/
def readyShadow (sh : Shadow) : State := { ready .anode with shadow := sh }

/-- P4's setting: the reference peer answers, keys (0,0), (0,6), (1,5), (2,7) pressed. -/
def readyKeys : State :=
  { ready .cathode with
    source := .reference
    peer := { ram := Memory.peerInit, regs := { Config.peerInit with keys := 0x802041 } } }

/-- The state after one step with a host word issued, if it is a next state. -/
def run (s : State) (w : Word) (payload : List Byte := []) : Option State :=
  match step { s with inputs := [.call w payload false] } with
  | .next t => some t
  | _ => none

/-- The state after one step with a wire command sent. -/
def runWire (s : State) (b : Byte) : Option State :=
  match step { s with inputs := [.command b] } with
  | .next t => some t
  | _ => none

/-- The transactions of a run from an empty trace (R45). -/
def sent (s : State) (o : Option State) : Option (List (List BusItem)) := o.map fun t => transactionsOf s.pins t.trace

/-- The transactions of a display write of `gs` from address command `a` (R77). -/
def display (a : Byte) (gs : List Byte) : List (List BusItem) := [[.wr 0x40], (a :: gs).map .wr]

/-! ### Well-formedness: each check refuses an ill-formed term (R60, R61) -/

theorem test_wf_type : ¬(Instr.init 0x02).WellFormed ∧ (Instr.init 0x01).WellFormed := by decide

theorem test_wf_position : ¬(Instr.sets 16 0x00).WellFormed ∧ ¬(Instr.setsHex 16 0x00).WellFormed ∧
    ¬(Instr.setsChar 16 0x00).WellFormed ∧ (Instr.sets 15 0x80).WellFormed := by decide

theorem test_wf_start : ¬(Instr.setm 16 0 []).WellFormed ∧ (Instr.setm 7 0 []).WellFormed := by decide

theorem test_wf_count : ¬(Instr.setmHex 15 2 [0x01, 0x02]).WellFormed ∧ (Instr.setmHex 14 2 [0x01, 0x02]).WellFormed := by
  decide

theorem test_wf_payload : ¬(Instr.setmChar 0 2 [0x00]).WellFormed ∧ ¬(Instr.setmChar 0 1 [0x00, 0x00]).WellFormed := by
  decide

/-! ### Decoding, on words written out from the spec's encodings -/

/-- R55: 0x40. -/
theorem test_decode_dataWrite : decode (.wire 0b01000000) = .ok .dataWrite := by decide

/-- R55: 0x42, the direction flag at bit 1 (R52). -/
theorem test_decode_dataRead : decode (.wire 0b01000010) = .ok .dataRead := by decide

/-- R53: 0b1100, then the address. -/
theorem test_decode_addrSet : decode (.wire 0b11001010) = .ok (.addrSet 10) := by decide

/-- R54: 0b1000, on at bit 3, brightness at bits 2..0. -/
theorem test_decode_dispCtrl : decode (.wire 0b10001100) = .ok (.dispCtrl true 4) ∧
    decode (.wire 0b10000111) = .ok (.dispCtrl false 7) := by decide

/-- R63: INIT ANODE. -/
theorem test_decode_init : decode (.host 0x00000100 []) = .ok (.init 0x01) := by decide

/-- R110. -/
theorem test_decode_deinit : decode (.host 0x00000001 []) = .ok .deinit := by decide

/-- R63: CONFIG 12, 1. -/
theorem test_decode_config : decode (.host 0x00010C02 []) = .ok (.config 12 1) := by decide

/-- P2 step 3: SETS 1, 0x06. -/
theorem test_decode_sets : decode (.host 0x00060103 []) = .ok (.sets 1 0x06) := by decide

/-- P3 step 3: SETM 8, [0x76, 0x10, 0x77]. -/
theorem test_decode_setm : decode (.host 0x00030804 [0x76, 0x10, 0x77]) = .ok (.setm 8 3 [0x76, 0x10, 0x77]) := by decide

/-- P3 step 4: SETSHEX 9, 0x80. -/
theorem test_decode_setsHex : decode (.host 0x00800905 []) = .ok (.setsHex 9 0x80) := by decide

/-- P1 step 3: SETMHEX 0, [1, 2, 3, 0x84]. -/
theorem test_decode_setmHex : decode (.host 0x00040006 [0x01, 0x02, 0x03, 0x84]) =
    .ok (.setmHex 0 4 [0x01, 0x02, 0x03, 0x84]) := by decide

/-- P1 step 5: SETSCHAR 8, '-' | 0x80. -/
theorem test_decode_setsChar : decode (.host 0x00AD0807 []) = .ok (.setsChar 8 0xAD) := by decide

/-- P1 step 4: SETMCHAR 4, "HELP". -/
theorem test_decode_setmChar : decode (.host 0x00040408 [0x48, 0x45, 0x4C, 0x50]) =
    .ok (.setmChar 4 4 [0x48, 0x45, 0x4C, 0x50]) := by decide

/-- R63: SCAN. -/
theorem test_decode_scan : decode (.host 0x00000009 []) = .ok .scan := by decide

/-- R56's bytes: the data instructions never emitted, reserved bits set, kind 0b00. -/
theorem test_decode_reserved_bytes : ([0x44, 0x46, 0x48, 0x4A, 0x4C, 0x4E, 0x41, 0x50, 0xD0, 0x90, 0x00, 0x3F] : List Byte).all
    (fun b => decode (.wire b) == .error .reservedCommand) = true := by decide

/-- V-RF-2, V-RF-3, V-RF-4, V-RF-8. -/
theorem test_decode_bad_words : ([0x0000000A, 0x00000019, 0x01000009, 0x00000101] : List Word).all
    (fun w => decode (.host w []) == .error .badWord) = true := by decide

/-- The table's numbering: a host word and its payload above it, first byte lowest. -/
theorem test_decode_table : decodeTableWord 32 0x00060103 = some (.sets 1 0x06) ∧
    decodeTableWord 64 0x0605040300040006 = some (.setmHex 0 4 [0x03, 0x04, 0x05, 0x06]) ∧
    decodeTableWord 8 0xC5 = some (.addrSet 5) ∧ decodeTableWord 8 0x44 = none := by decide

/-! ### Transport (V-TR) -/

/-- V-TR-8: CONFIG 7, 1's whole trace, byte 0x8F. -/
theorem test_config_trace : (run (ready .cathode) 0x00010702).map (·.trace) = some
    (([.stb false, .dioDir .output] : List Event) ++
      ([true, true, true, true, false, false, false, true].flatMap fun l =>
        [.clk false, .delay 1, .dioDrive l, .clk true, .delay 1]) ++ [.stb true]) := by decide +kernel

/-- V-TR-3: WRITE_BYTES([]) is `DioDir(OUT)` alone. -/
theorem test_write_nothing : (writeBytes [] State.reset).trace = [.dioDir .output] ∧
    (writeBytes [] State.reset).pins.clk = false := by decide +kernel

/-- V-TR-7's counts, for a read of four bytes: 77 units, DIO left an input. -/
theorem test_read_four : delayUnits (readEvents [0xFF, 0xFF, 0xFF, 0xFF]) = 77 := by decide +kernel

/-! ### Wire commands -/

/-- V-EN-1; the bits as they stand on DIO at CLK rising (V-TR-1) are 0x40. -/
theorem test_dataWrite : sent State.reset (runWire State.reset 0x40) = some [[.wr 0x40]] := by decide +kernel

/-- V-EN-2, and the peer in read mode (R47). -/
theorem test_dataRead : (runWire State.reset 0x42).map (·.peer.regs.mode) = some .read := by decide +kernel

/-- V-EN-3 and R47: the pointer. -/
theorem test_addrSet : (runWire State.reset 0xCF).map (·.peer.regs.ptr.val) = some 15 := by decide +kernel

/-- V-EN-5 and R47: on, brightness 4. -/
theorem test_dispCtrl : (runWire State.reset 0x8C).map (fun t => (t.peer.regs.dispOn, t.peer.regs.bright)) =
    some (true, 4) := by decide +kernel

/-- A reserved byte has no meaning (R56). -/
theorem test_reserved_command : runWire State.reset 0x44 = none := by decide +kernel

/-! ### CONFIG_DISPLAY -/

/-- V-L1-9: brightness 12 is masked to 4, on; V-EN-9: on-flag 2 is on. -/
theorem test_config_masks : sent (ready .cathode) (run (ready .cathode) 0x00020C02) = some [[.wr 0x8C]] := by
  decide +kernel

/-! ### Display, cathode (V-DC, V-L1-7, V-GL-18, V-GL-19) -/

/-- V-DC-2. -/
theorem test_setm_cathode : sent (ready .cathode) (run (ready .cathode) 0x00020204 [0x3F, 0x06]) =
    some (display 0xC2 [0x3F, 0x06]) := by decide +kernel

/-- V-DC-5, and the byte in PEER_RAM (P5 step 6). -/
theorem test_sets_cathode : (run (ready .cathode) 0x00800F03).map (fun t => t.peer.ram.read 15) = some (some 0x80) := by
  decide +kernel

/-- V-L1-7: the decimal point goes to digit 4. -/
theorem test_setmHex_cathode : sent (ready .cathode) (run (ready .cathode) 0x00040006 [0x01, 0x02, 0x03, 0x84]) =
    some (display 0xC0 [0x06, 0x5B, 0x4F, 0xE6]) := by decide +kernel

/-- V-GL-19. -/
theorem test_setsHex_cathode : sent (ready .cathode) (run (ready .cathode) 0x000A0305) =
    some (display 0xC3 [0x77]) := by decide +kernel

/-- V-GL-18: 'H', 'i', '-' with its point. -/
theorem test_setmChar_cathode : sent (ready .cathode) (run (ready .cathode) 0x00030008 [0x48, 0x69, 0xAD]) =
    some (display 0xC0 [0x76, 0x10, 0xC0]) := by decide +kernel

/-- P1 step 5. -/
theorem test_setsChar_cathode : sent (ready .cathode) (run (ready .cathode) 0x00AD0807) =
    some (display 0xC8 [0xC0]) := by decide +kernel

/-! ### Display, anode (V-DA) -/

/-- V-DA-5, from V-DA-4's result: position 9's update leaves bit 0 of the odd lanes. -/
theorem test_sets_anode : (run (readyShadow #v[0xF7, 3, 0xF7, 3, 0xF7, 3, 0xF7, 3, 0xF7, 3, 0xF7, 3, 0xF7, 3, 0xF7, 3])
      0x00800903).map (·.shadow) =
    some #v[0xF7, 1, 0xF7, 1, 0xF7, 1, 0xF7, 1, 0xF7, 1, 0xF7, 1, 0xF7, 1, 0xF7, 3] := by decide +kernel

/-- V-DA-8: position 10 is dropped. -/
theorem test_setm_anode : (run (ready .anode) 0x00030804 [0x76, 0x10, 0x77]).map (·.shadow) =
    some #v[0, 0, 0, 1, 0, 1, 0, 0, 0, 3, 0, 1, 0, 1, 0, 0] := by decide +kernel

/-- P3 step 4, from step 3's shadow: HEXGLYPH(0x80) = 0xBF at position 9. -/
theorem test_setsHex_anode : (run (readyShadow #v[0, 0, 0, 1, 0, 1, 0, 0, 0, 3, 0, 1, 0, 1, 0, 0]) 0x00800905).map (·.shadow) =
    some #v[0, 2, 0, 3, 0, 3, 0, 2, 0, 3, 0, 3, 0, 1, 0, 2] := by decide +kernel

/-- V-DA-7: 'L' at position 9, and the 16 bytes rewritten (R101). -/
theorem test_setsChar_anode : sent (ready .anode) (run (ready .anode) 0x004C0907) =
    some (display 0xC0 [0, 0, 0, 0, 0, 0, 0, 2, 0, 2, 0, 2, 0, 0, 0, 0]) := by decide +kernel

/-! ### Glyphs (V-GL, V-L1) -/

/-- V-GL-1 to V-GL-6. -/
theorem test_hexGlyph : [0x10, 0x7F, 0x80, 0xFF, 0x8F, 0x41].map (hexGlyph GlyphRom.default) = [0x00, 0x00, 0xBF, 0x80, 0xF1, 0x00] := by
  decide +kernel

/-- V-GL-7 to V-GL-17, V-L1-3, V-L1-10. -/
theorem test_charGlyph :
    [0x00, 0x05, 0x0F, 0x10, 0x8A, 0x41, 0x61, 0xC1, 0x47, 0x67, 0x48, 0x68, 0x4C, 0x6C, 0x2D, 0xAD, 0x5F, 0x7E, 0x30, 0x39,
      0xB0, 0x3F, 0xBF, 0x42, 0x62].map (charGlyph GlyphRom.default) =
    [0x3F, 0x6D, 0x71, 0x00, 0xF7, 0x77, 0x77, 0xF7, 0x3D, 0x6F, 0x76, 0x74, 0x38, 0x06, 0x40, 0xC0, 0x08, 0x01, 0x00, 0x00,
      0x80, 0x00, 0x80, 0x00, 0x7C] := by decide +kernel

/-- Another HEX_GLYPH and OVERSCORE_CODE (R8): the operation writes that table's glyphs (R90, R91, R98, R100). -/
theorem test_other_tables :
    sent (ready .cathode) (run { ready .cathode with rom := GlyphRom.ofParams (Vector.replicate 16 0x55) 0x2A }
      0x00020004 [0x55, 0x2A]) = some (display 0xC0 [0x55, 0x2A]) ∧
    sent (ready .cathode) (run { ready .cathode with rom := GlyphRom.ofParams (Vector.replicate 16 0x55) 0x2A }
      0x00020006 [0x0F, 0x90]) = some (display 0xC0 [0x55, 0x80]) ∧
    sent (ready .cathode) (run { ready .cathode with rom := GlyphRom.ofParams (Vector.replicate 16 0x55) 0x2A }
      0x00040008 [0x83, 0x2A, 0x7E, 0x41]) = some (display 0xC0 [0xD5, 0x01, 0x00, 0x77]) := by decide +kernel

/-! ### Key scan (V-KS) -/

/-- V-KS-5, V-KS-7 to V-KS-12. -/
theorem test_keyDecode :
    [[0x04, 0, 0, 0], [0, 0, 0, 0x40], [0x01, 0x10, 0x22, 0x04], [0x21, 0x42, 0x14, 0x00], [0x0F, 0xF0, 0, 0],
      [0x88, 0x88, 0x88, 0x88], [0x77, 0x77, 0x77, 0x77]].map keyDecode =
    [0x010000, 0x800000, 0x403009, 0x180621, 0x090909, 0x000000, 0xFFFFFF] := by decide +kernel

/-- P4 step 2: the bytes the reference peer gives, in one transaction with the read command. -/
theorem test_scan : sent readyKeys (run readyKeys 0x00000009) =
    some [[.wr 0x42, .rd 0x01, .rd 0x00, .rd 0x20, .rd 0x41]] := by decide +kernel

/-- R26: DIO is left an input, STB and CLK high. -/
theorem test_scan_pins : (run readyKeys 0x00000009).map (·.pins) =
    some { stb := true, clk := true, dioDir := .input, dioOut := false } := by decide +kernel

/-! ### Life cycle (V-LC) and refusals (V-RF) -/

/-- V-LC-2. -/
theorem test_init : (run State.reset 0x00000100).map (fun t => (t.life, t.dtype, t.trace)) =
    some (.ready, .anode, [.platInit, .stb true, .clk true, .dioDir .output, .dioDrive true]) := by decide +kernel

/-- V-LC-3: the shadow is zeroed. -/
theorem test_init_again : (run (readyShadow (Vector.replicate 16 0xF7)) 0x00000000).map (fun t => (t.dtype, t.shadow)) =
    some (.cathode, Vector.replicate 16 0x00) := by decide +kernel

/-- V-LC-4. -/
theorem test_deinit : (run (ready .anode) 0x00000001).map (fun t => (t.life, t.trace)) = some (.deinit, [.platDeinit]) := by
  decide +kernel

/-- V-RF-1, V-RF-5, V-LC-7 at power-on, V-RF-6, V-RF-7 on a READY handle. -/
theorem test_refusals : (run State.reset 0x00000009).map (·.report) = some (.refused .notReady) ∧
    (run State.reset 0x0000000F).map (·.report) = some (.refused .badWord) ∧
    (run State.reset 0x00000200).map (·.report) = some (.refused .badType) ∧
    (run (ready .cathode) 0x00011004 [0x00]).map (·.report) = some (.refused .badRange) ∧
    (run (ready .cathode) 0x00020004 [0x00]).map (·.report) = some (.refused .badRange) := by decide +kernel

/-- P5: a refused operation leaves nothing on the trace, and the mark set. -/
theorem test_refused_trace : (run (ready .cathode) 0x00020F04 [0x01, 0x02]).map (fun t => (t.trace, t.refusalMark)) =
    some ([], true) := by decide +kernel

/-- The table's word is what the next step runs, as the first after reset. -/
theorem test_withFetchWord : step (State.reset.withFetchWord 32 0x00000100) = exec (.init 0x01) State.reset ∧
    step (State.reset.withFetchWord 8 0x8F) = exec (.dispCtrl true 7) State.reset := ⟨rfl, rfl⟩

/-! ### Witnesses: for each statement with hypotheses, concrete terms that meet them, each clause at a boundary value -/

theorem witness_EncodeOfDecode : decode (.host 0x00FF0F03 []) = .ok (.sets 15 0xFF) ∧
    decode (.wire 0xCF) = .ok (.addrSet 15) := by decide

theorem witness_StepRunsHostOperation :
    (State.reset.withFetchWord 32 0x00000009).inputs = [.call 0x00000009 [] false] ∧
    decode (.host 0x00000009 []) = .ok .scan := by decide

theorem witness_StepRunsWireCommand :
    (State.reset.withFetchWord 8 0x42).inputs = [.command 0x42] ∧ decode (.wire 0x42) = .ok .dataRead := by decide

theorem witness_IdleAndKeyInput : State.reset.inputs = [] ∧
    ({ State.reset with inputs := [.keys 0xFFFFFF] } : State).inputs = [.keys 0xFFFFFF] := by decide

/-- A step that adds events (V-LC-1), one that adds none (V-RF-1). -/
theorem witness_TraceOnlyGrows : (∃ t, step (State.reset.withFetchWord 32 0x00000000) = .next t) ∧
    ∃ t, step (State.reset.withFetchWord 32 0x00000009) = .next t := ⟨⟨_, rfl⟩, ⟨_, rfl⟩⟩

/-- A refused and an admitted operation as the next input; then each reason and, in R114's order, each before the next; then
admitted words at the edges of R61. -/
theorem witness_HostOperationOutcome :
    (State.reset.withFetchWord 32 0x00000009).inputs = [.call 0x00000009 [] false] ∧
    refusalReason (State.reset.withFetchWord 32 0x00000009).life 0x00000009 [] false = some .notReady ∧
    ((ready .cathode).withFetchWord 32 0x00FF0F03).inputs = [.call 0x00FF0F03 [] false] ∧
    refusalReason ((ready .cathode).withFetchWord 32 0x00FF0F03).life 0x00FF0F03 [] false = none ∧
    refusalReason .ready 0x0000000F [] true = some .reentrant ∧
    refusalReason .uninit 0x0000000A [] false = some .badWord ∧
    refusalReason .ready 0x00010000 [] false = some .badWord ∧
    refusalReason .ready 0x00000019 [] false = some .badWord ∧
    refusalReason .ready 0x01000009 [] false = some .badWord ∧
    refusalReason .ready 0x00000101 [] false = some .badWord ∧
    refusalReason .ready 0x00060103 [0x00] false = some .badWord ∧
    refusalReason .uninit 0x00001003 [] false = some .notReady ∧
    refusalReason .deinit 0x00000200 [] false = some .badType ∧
    refusalReason .ready 0x00001003 [] false = some .badRange ∧
    refusalReason .ready 0x00001004 [] false = some .badRange ∧
    refusalReason .ready 0x00020F04 [0x01, 0x02] false = some .badRange ∧
    refusalReason .ready 0x00020004 [0x00] false = some .badRange ∧
    refusalReason .ready 0x00FF0F03 [] false = none ∧
    refusalReason .ready 0x00000F04 [] false = none ∧
    refusalReason .ready 0x00010F08 [0xAD] false = none ∧
    refusalReason .uninit 0x00000100 [] false = none := by decide

theorem witness_NotReadyRefused : Instr.scan.isHostOp = true ∧ isInit .scan = false ∧ State.reset.life ≠ .ready ∧
    (Instr.sets 16 0).isHostOp = true ∧ isInit (.sets 16 0) = false ∧
    ({ State.reset with life := .deinit } : State).life ≠ .ready := by decide

theorem witness_BadRangeRefused : (ready .anode).life = .ready ∧ 15 < (16 : Byte).toNat ∧
    16 < (15 : Byte).toNat + (2 : Byte).toNat ∧ ([0x00] : List Byte).length ≠ (2 : Byte).toNat := by decide

theorem witness_BadTypeRefused : 2 ≤ (0x02 : Byte).toNat ∧ 2 ≤ (0xFF : Byte).toNat := by decide

theorem witness_RefusalMarkStays : ∃ t, step
    { ready .cathode with refusalMark := true, inputs := [.call 0x00800F03 [] false] } = .next t := ⟨_, rfl⟩

theorem witness_StatusIsOkWhenAdmitted : (Instr.setm 15 1 [0x80]).isHostOp = true ∧ Instr.scan.isHostOp = true := by decide

theorem witness_InitializeResult : State.reset.rx = Receiver.closed ∧
    ((0x00 : Byte) = 0x00 ∧ DisplayType.cathode = .cathode) ∧ ((0x01 : Byte) = 0x01 ∧ DisplayType.anode = .anode) := by
  decide

theorem witness_DeinitializeResult : (ready .cathode).life = .ready := by decide

/-- A set-position operation on a CATHODE handle, one that is none on an ANODE handle, and DEINITIALIZE. -/
theorem witness_WhoWritesTheBlockState :
    (∃ t, exec (.sets 5 0x6D) (ready .cathode) = .next t) ∧ isInit (.sets 5 0x6D) = false ∧
    (ready .cathode).dtype = .cathode ∧ Instr.sets 5 0x6D ≠ .deinit ∧
    (∃ t, exec (.config 7 1) (ready .anode) = .next t) ∧ isInit (.config 7 1) = false ∧ isSetOp (.config 7 1) = false ∧
    (∃ t, exec .deinit (ready .anode) = .next t) ∧ isInit .deinit = false :=
  ⟨⟨_, rfl⟩, rfl, rfl, by decide, ⟨_, rfl⟩, rfl, rfl, ⟨_, rfl⟩, rfl⟩

theorem witness_PowerOn : Instr.deinit.isHostOp = true ∧ isInit .deinit = false ∧ 15 < 16 ∧ ¬16 < 16 := by decide

theorem witness_FramingHolds : isInit .scan = false ∧ ∃ t, exec .scan (ready .cathode) = .next t := ⟨rfl, ⟨_, rfl⟩⟩

/-- P4's scan, and its one transaction. -/
theorem witness_OnlyFourCommandsEmitted :
    (∃ t, exec .scan readyKeys = .next t) ∧
    (run readyKeys 0x00000009).map (fun t => transactionsOf readyKeys.pins (newEvents readyKeys t)) =
      some [[.wr 0x42, .rd 0x01, .rd 0x00, .rd 0x20, .rd 0x41]] := ⟨⟨_, rfl⟩, by decide +kernel⟩

theorem witness_IdleLevelsHigh : Instr.scan ≠ .deinit ∧
    ∃ t, exec .scan (ready .cathode) = .next t ∧ ∀ r, t ≠ refusedState (ready .cathode) r :=
  ⟨by decide, _, rfl, fun r h => by cases congrArg (fun s => s.report) h⟩

/-- Each clause: INITIALIZE, DEINITIALIZE, CONFIG, SCAN, an ANODE set, and the CATHODE sets at P = 15 and at N = 16. -/
theorem witness_DelayUnitsOfOperations :
    (∃ t, exec (.init 0x00) State.reset = .next t) ∧ (∃ t, exec .deinit (ready .cathode) = .next t) ∧
    (ready .cathode).life = .ready ∧ (ready .anode).life = .ready ∧
    (∃ t, exec (.config 7 1) (ready .cathode) = .next t) ∧ (∃ t, exec .scan (ready .cathode) = .next t) ∧
    (isSetOp (.setsHex 15 0x80) = true ∧ (Instr.setsHex 15 0x80).WellFormed ∧ (ready .anode).dtype = .anode ∧
      ∃ t, exec (.setsHex 15 0x80) (ready .anode) = .next t) ∧
    (rangeOk 0 16 (List.replicate 16 0x00) = true ∧ (ready .cathode).dtype = .cathode ∧
      ∃ t, exec (.setm 0 16 (List.replicate 16 0x00)) (ready .cathode) = .next t) ∧
    (positionOk 15 = true ∧ ∃ t, exec (.setsChar 15 0x41) (ready .cathode) = .next t) :=
  ⟨⟨_, rfl⟩, ⟨_, rfl⟩, rfl, rfl, ⟨_, rfl⟩, ⟨_, rfl⟩, ⟨rfl, by decide, rfl, ⟨_, rfl⟩⟩, ⟨by decide, rfl, ⟨_, rfl⟩⟩,
    by decide, ⟨_, rfl⟩⟩

/-- T_UNIT 1, PEER_TWAIT 5, PEER_MIN_HALF 1: both inequalities are equalities. -/
theorem witness_PeerTimingRespected : TimingMet 1 5 1 ∧ isInit .scan = false ∧
    ∃ t, exec .scan (ready .cathode) = .next t := ⟨by unfold TimingMet; decide, rfl, ⟨_, rfl⟩⟩

theorem witness_ConfigDisplayResult : (ready .anode).life = .ready := by decide

/-- Each clause; the admitted one at P = 15 with N = 1, at P = 0 with N = 16, and with N = 0. -/
theorem witness_SetMultiResult : State.reset.life ≠ .ready ∧ (ready .cathode).life = .ready ∧
    15 < (16 : Byte).toNat ∧ 16 < (15 : Byte).toNat + (2 : Byte).toNat ∧ ([] : List Byte).length ≠ (1 : Byte).toNat ∧
    ((15 : Byte).toNat ≤ 15 ∧ (15 : Byte).toNat + (1 : Byte).toNat ≤ 16 ∧ ([0x80] : List Byte).length = (1 : Byte).toNat) ∧
    ((0 : Byte).toNat ≤ 15 ∧ (0 : Byte).toNat + (16 : Byte).toNat ≤ 16 ∧
      (List.replicate 16 (0x00 : Byte)).length = (16 : Byte).toNat) ∧
    ((7 : Byte).toNat + (0 : Byte).toNat ≤ 16 ∧ ([] : List Byte).length = (0 : Byte).toNat) := by decide

theorem witness_SetSingleResult : (ready .anode).life = .ready ∧ (15 : Byte).toNat ≤ 15 := by decide

theorem witness_CathodeRoundTrip : (ready .cathode).life = .ready ∧ (ready .cathode).dtype = .cathode ∧
    (15 : Byte).toNat ≤ 15 ∧ ∃ t, exec (.sets 15 0x80) (ready .cathode) = .next t := ⟨rfl, rfl, by decide, _, rfl⟩

/-- A bit that belongs to the position (7 and 9 being the last of each kind of lane), and one that does not. -/
theorem witness_AnodeUpdateBits : 14 < 16 ∧ 7 < 8 ∧ belongsTo 7 14 7 = true ∧ belongsTo 9 15 1 = true ∧
    belongsTo 9 15 0 = false ∧ belongsTo 10 15 2 = false := by decide

/-- The first position without effect; V-DA-8's run from 8, of which two glyphs reach the shadow. -/
theorem witness_AnodePositionsPastNine : 10 ≤ 10 ∧ ([0x76, 0x10, 0x77] : List Byte).take (10 - 8) = [0x76, 0x10] := by decide

/-- The run's first and last position, the positions on both sides of it, and the last position of the shadow. -/
theorem witness_ShadowHoldsLastGlyphs :
    (let gs : List Byte := [0x76, 0x10]
     (7 ≤ 9 ∧ 7 ≤ 7 ∧ 7 < 7 + gs.length) ∧ (8 ≤ 9 ∧ 7 ≤ 8 ∧ 8 < 7 + gs.length) ∧
     (6 ≤ 9 ∧ ¬(7 ≤ 6 ∧ 6 < 7 + gs.length)) ∧ (9 ≤ 9 ∧ ¬(7 ≤ 9 ∧ 9 < 7 + gs.length))) ∧
    0 ≤ 9 ∧ lastWritten 9 [(9, 0x06), (8, 0x5B), (9, 0x80)] = 0x80 := by decide

theorem witness_AnodePeerEqualsShadow : isSetOp (.setsChar 15 0xC1) = true ∧ (Instr.setsChar 15 0xC1).WellFormed ∧
    (ready .anode).life = .ready ∧ (ready .anode).dtype = .anode := by decide

theorem witness_ShadowReadAfterWrite : 14 + ([0x3F, 0x06] : List Byte).length ≤ 16 ∧
    (13 < 14 ∨ 14 + ([0x3F, 0x06] : List Byte).length ≤ 13) := by decide

/-- The default overscore; the unlisted codes '?' and 'B', the lowest one 0x10 and the highest 0x7F; hex digit 15. -/
theorem witness_CharGlyphCases :
    (16 ≤ (0x7E : Byte).toNat ∧ (0x7E : Byte).toNat < 128 ∧ (0x7E : Byte) ∉ listedCodes) ∧
    (([0x10, 0x3F, 0x42, 0x7F] : List Byte).all fun c =>
      decide (16 ≤ c.toNat ∧ c.toNat < 128 ∧ c ∉ listedCodes ∧ c ≠ 0x7E)) = true ∧
    (0x0F : Byte).toNat ≤ 15 ∧ (0x41 : Byte) ∈ listedCodes := by decide

theorem witness_GlyphRomNeverWritten : ∃ t, step ((ready .cathode).withFetchWord 32 0x00AD0807) = .next t := ⟨_, rfl⟩

theorem witness_SetMultiHexResult : State.reset.life ≠ .ready ∧ (ready .anode).life = .ready ∧ 15 < (16 : Byte).toNat ∧
    16 < (15 : Byte).toNat + (2 : Byte).toNat ∧ ([] : List Byte).length ≠ (1 : Byte).toNat ∧
    (12 : Byte).toNat ≤ 15 ∧ (12 : Byte).toNat + (4 : Byte).toNat ≤ 16 ∧
    ([0x01, 0x02, 0x03, 0x84] : List Byte).length = (4 : Byte).toNat := by decide

theorem witness_SetSingleHexResult : (ready .cathode).life = .ready ∧ (15 : Byte).toNat ≤ 15 := by decide

theorem witness_SetMultiCharResult : (ready .cathode).life = .ready ∧ (15 : Byte).toNat ≤ 15 ∧
    (15 : Byte).toNat + (1 : Byte).toNat ≤ 16 ∧ ([0xAD] : List Byte).length = (1 : Byte).toNat := by decide

theorem witness_SetSingleCharResult : (ready .anode).life = .ready ∧ (9 : Byte).toNat ≤ 15 := by decide

theorem witness_KeyDecodeBits : 2 < 3 ∧ 3 < 4 := by decide

theorem witness_ScanKeysResult : (ready .anode).life = .ready ∧ 23 < 24 := by decide

theorem witness_ScanReadsReferenceKeys : readyKeys.life = .ready ∧ readyKeys.source = .reference ∧ 2 < 3 ∧ 7 < 8 := by
  decide

/-- An instruction that is not INITIALIZE, and an admitted INITIALIZE. -/
theorem witness_OnlySetOpsReadDtype : (isSetOp .scan = false ∧ isInit .scan = false ∧
      ∃ t, exec .scan (ready .anode) = .next t) ∧
    (isSetOp (.init 0x01) = false ∧ isInit (.init 0x01) = true ∧ (Instr.init 0x01).WellFormed ∧
      ∃ t, exec (.init 0x01) (ready .cathode) = .next t) := ⟨⟨rfl, rfl, _, rfl⟩, rfl, rfl, by decide, _, rfl⟩

theorem witness_CathodeIgnoresShadow : isInit (.sets 5 0x6D) = false ∧ (ready .cathode).dtype = .cathode ∧
    ∃ t, exec (.sets 5 0x6D) (ready .cathode) = .next t := ⟨rfl, rfl, _, rfl⟩

theorem witness_BlockIgnoresPeerState : (ready .anode).source = .oracle ∧ ∃ t, exec .scan (ready .anode) = .next t :=
  ⟨rfl, _, rfl⟩

/-- A READY ANODE handle whose shadow is V-DA-3's result, about to run an operation. -/
theorem witness_StepKeepsInvariant :
    Inv { readyShadow #v[0xFF, 3, 0xFF, 3, 0xFF, 3, 0xFF, 3, 0xFF, 3, 0xFF, 3, 0xFF, 3, 0xFF, 3] with
      inputs := [.call 0x00000303 [] false] } ∧
    ∃ t, step { readyShadow #v[0xFF, 3, 0xFF, 3, 0xFF, 3, 0xFF, 3, 0xFF, 3, 0xFF, 3, 0xFF, 3, 0xFF, 3] with
      inputs := [.call 0x00000303 [] false] } = .next t := by
  refine ⟨⟨rfl, fun _ => ⟨rfl, rfl⟩, fun _ k hk b hb => ?_, fun _ h => ?_, Laws.peerInit_wf, fun m h => ?_, fun r h => ?_⟩, _, rfl⟩
  · by_cases h8 : b < 8
    · revert k b
      decide +kernel
    · exact BitVec.getLsbD_of_ge _ _ (by omega)
  · cases h
  · cases h
  · cases h

end Sys2Proof.Tests
end

section
/-! PROOF. Power-on of a machine built with any glyph tables (spec/00_scope.md R8, 10_state.md R29), and what a handle that
is not READY answers to a host operation (10_state.md R17). -/

namespace Sys2Proof.Proofs

open Sys2Proof.Machine Sys2Proof.Safety Sys2Proof.Laws

/-- The model's `refuse` leaves the state that the statements call refused (R113). -/
theorem refuse_eq_refusedState (r : Reason) (s : State) : refuse r s = refusedState s r := rfl

/-- The READY check of R17 on a handle that is not READY. -/
theorem whenReady_of_life_ne_ready {s : State} (hl : s.life ≠ .ready) (rest : Host.Outcome State Fault Refusal) :
    whenReady s rest = .next (refusedState s .notReady) := by
  rw [whenReady, if_neg hl, refuse_eq_refusedState]

/-- Every host operation but INITIALIZE begins with the READY check (R17). -/
theorem exec_eq_whenReady {i : Instr} (hh : i.isHostOp = true) (hi : isInit i = false) (s : State) :
    ∃ rest, exec i s = whenReady s rest := by
  cases i with
  | dataWrite | dataRead | addrSet | dispCtrl => cases hh
  | init => cases hi
  | deinit | config | sets | setm | setsHex | setmHex | setsChar | setmChar | scan => exact ⟨_, rfl⟩

/-- While `life` is not READY, a host operation other than INITIALIZE is refused `NotReady` (R17, D23). -/
theorem exec_of_life_ne_ready {i : Instr} {s : State} (hh : i.isHostOp = true) (hi : isInit i = false)
    (hl : s.life ≠ .ready) : exec i s = .next (refusedState s .notReady) := by
  obtain ⟨rest, h⟩ := exec_eq_whenReady hh hi s
  exact h.trans (whenReady_of_life_ne_ready hl rest)

/-- An address outside 0..15 is none of a canonical PEER_RAM's (R38, R46). -/
theorem memory_read_eq_none_of_ge {m : Memory} (h : m.wf = true) {a : Nat} (ha : 16 ≤ a) : m.read a = none := by
  have hsome : ¬ (m.read a).isSome = true := by
    rw [memory_read_wf m h]
    omega
  simpa using hsome

/-- PEER_RAM at power-on: the PEER_INIT draw at its 16 addresses, nothing elsewhere (R46, D18). -/
theorem peerInit_read_eq_ite (a : Nat) :
    Memory.peerInit.read a = if a < 16 then some (Config.peerInitRam a) else none := by
  split
  next h => exact peerInit_read a h
  next h => exact memory_read_eq_none_of_ge peerInit_wf (Nat.le_of_not_lt h)

theorem powerOn_life_ne_ready (rom : GlyphRom) : (State.powerOn rom).life ≠ .ready := nofun

/-- Settles O20: the fields are power-on's own; PEER_RAM is the PEER_INIT draw in canonical form; UNINIT is not READY, so
the READY check refuses. -/
theorem powerOn : Obligations.PowerOn :=
  ⟨rfl, fun rom => ⟨rfl, rfl, rfl, rfl, peerInit_read_eq_ite, rfl, rfl,
    fun _ hh hi => exec_of_life_ne_ready hh hi (powerOn_life_ne_ready rom)⟩⟩

end Sys2Proof.Proofs
end

section
/-! PROOF. No operation, and so no step, writes the glyph tables (spec/20_memory.md R42, 43_glyph_rom.md R88). -/

namespace Sys2Proof.Proofs

open Sys2Proof.Machine Sys2Proof.Laws

@[simp] theorem send_rom (bs : List Byte) (s : State) : (send bs s).rom = s.rom := by rw [send_eq]

@[simp] theorem displayWrite_rom (a : BitVec 4) (gs : List Byte) (s : State) : (displayWrite a gs s).rom = s.rom := by
  rw [displayWrite, send_rom, send_rom]

@[simp] theorem setCathode_rom (p : Byte) (gs : List Byte) (s : State) : (setCathode p gs s).rom = s.rom :=
  displayWrite_rom _ _ _

@[simp] theorem setAnode_rom (p : Byte) (gs : List Byte) (s : State) : (setAnode p gs s).rom = s.rom :=
  displayWrite_rom _ _ { s with shadow := anodeUpdates s.shadow p.toNat gs }

@[simp] theorem scanKeys_rom (s : State) : (scanKeys s).rom = s.rom := by
  obtain ⟨_, _, _, -, -, hscan⟩ := scanKeys_cases s
  rw [hscan]

@[simp] theorem bringUp_rom (d : DisplayType) (s : State) : (bringUp d s).rom = s.rom := by rw [bringUp_eq]

@[simp] theorem release_rom (s : State) : (release s).rom = s.rom := by rw [release_eq]

/-- No instruction writes the glyph tables (R88), whichever of its outcomes it has. -/
theorem exec_keeps_rom {i : Instr} {s t : State} (h : exec i s = .next t) : t.rom = s.rom := by
  obtain ⟨t', ht', hcases⟩ := exec_cases i s
  have htt' : t = t' := Host.Outcome.next.inj (h.symm.trans ht')
  rw [htt']
  -- Every field but `rom` may differ: each case rewrites by its own rule, never by unfolding the bus transport.
  obtain ⟨_, -, hrefuse⟩ | ⟨_, -, hinit⟩ | ⟨-, -, hdeinit⟩ | ⟨_, -, -, hwire⟩ | ⟨_, _, -, -, hconfig⟩ |
    ⟨_, _, -, -, -, -, -, hcathode⟩ | ⟨_, _, -, -, -, -, -, hanode⟩ | ⟨-, -, hscan⟩ := hcases
  · rw [hrefuse, refuse_rom]
  · rw [hinit, bringUp_rom]
  · rw [hdeinit, release_rom]
  · rw [hwire, send_rom]
  · rw [hconfig, returnOk_rom, send_rom]
  · rw [hcathode, returnOk_rom, setCathode_rom]
  · rw [hanode, returnOk_rom, setAnode_rom]
  · rw [hscan, scanKeys_rom]

/-- Settles O59: an idle step, a refused input and a new key matrix leave the tables by their form; an instruction keeps
them. -/
theorem glyphRomNeverWritten : Obligations.GlyphRomNeverWritten := by
  intro s t h
  obtain ⟨-, rfl⟩ | ⟨_, rest, -, ⟨_, rfl⟩ | ⟨_, rfl⟩ | ⟨_, hexec⟩⟩ := step_cases s t h
  · rfl
  · rfl
  · rfl
  · exact exec_keeps_rom (s := { s with inputs := rest }) hexec

end Sys2Proof.Proofs
end

section
/-! PROOF. The worked words of spec/30_encoding.md R63, and one byte of each wire command of R55. -/

namespace Sys2Proof.Proofs

open Sys2Proof.Laws

/-- The decoder takes from a host word the operation and the operands that the encoder put in its fields (R59, R60),
well-formed or not. -/
theorem decode_encode_of_isHostOp {i : Instr} (hh : i.isHostOp = true) : decode (encode i) = .ok i := by
  cases i with
  | dataWrite | dataRead | addrSet | dispCtrl => cases hh
  | init | deinit | config | sets | setm | setsHex | setmHex | setsChar | setmChar | scan =>
    simp [encode, decode, decodeHost, accept]

/-- A word the encoder gives a host operation decodes to that operation. -/
theorem decode_of_encode_eq {i : Instr} {e : Encoded} (he : encode i = e) (hh : i.isHostOp = true) :
    decode e = .ok i :=
  he ▸ decode_encode_of_isHostOp hh

/-- Settles O3: the encoder is computed on R63's four operations, each word then decodes because it is the encoder's, and
the decoder is computed on the four wire bytes. -/
theorem workedWords : Obligations.WorkedWords := by
  have hinit : encode (.init 0x01) = .host 0x00000100 [] := by decide
  have hconfig : encode (.config 12 1) = .host 0x00010C02 [] := by decide
  have hsetmHex : encode (.setmHex 0 4 [0x01, 0x02, 0x03, 0x84]) = .host 0x00040006 [0x01, 0x02, 0x03, 0x84] := by decide
  have hscan : encode .scan = .host 0x00000009 [] := by decide
  have hemits : cmdDisp 12 true = 0x8C := by decide
  have hwire : decode (.wire 0x40) = .ok .dataWrite ∧ decode (.wire 0x42) = .ok .dataRead ∧
      decode (.wire 0xC5) = .ok (.addrSet 5) ∧ decode (.wire 0x8F) = .ok (.dispCtrl true 7) := by decide
  exact ⟨hinit, hconfig, hemits, hsetmHex, hscan, decode_of_encode_eq hinit rfl, decode_of_encode_eq hconfig rfl,
    decode_of_encode_eq hsetmHex rfl, decode_of_encode_eq hscan rfl, hwire⟩

end Sys2Proof.Proofs
end

section
/-! PROOF. WRITE_BYTES from any state (spec/40_bus_transport.md R66). -/

namespace Sys2Proof.Proofs

open Sys2Proof.Machine Sys2Proof.Safety Sys2Proof.Laws

/-- The events of WRITE_BYTES, each byte's bits taken by their index, bit 0 first (R66). -/
theorem writeEvents_eq_range (bs : List Byte) :
    writeEvents bs = .dioDir .output :: bs.flatMap fun b => (List.range 8).flatMap fun m =>
      [.clk false, .delay 1, .dioDrive (b.getLsbD m), .clk true, .delay 1] := rfl

/-- CLK after a run of written bytes: high if there was one, else as before. -/
theorem not_isEmpty_or_eq_ite (bs : List Byte) (l : Level) :
    (!bs.isEmpty || l) = if bs = [] then l else true := by
  cases bs with
  | nil => rfl
  | cons b bs => rfl

/-- Settles O21: the record update of `writeBytes_any`, its events spelled out bit by bit and its clock level by whether a
byte was written; the statement takes the receiver to be the result's own, which that law leaves open. -/
theorem writeBytesResult : Obligations.WriteBytesResult := by
  intro bs s
  obtain ⟨rx, hwrite⟩ := writeBytes_any bs s
  rw [hwrite, writeEvents_eq_range, not_isEmpty_or_eq_ite]

end Sys2Proof.Proofs
end

section
/-! PROOF. The anode shadow bit by bit and glyph by glyph (spec/42_display_register.md R79 to R81, R85, R86). -/

namespace Sys2Proof.Proofs

open Sys2Proof.Machine Sys2Proof.Safety Sys2Proof.Laws

/-! ### One update -/

/-- The update loop of R79 over the lanes of parity `o`: the bits it writes are bit `b` of the first `n` of them. -/
theorem foldl_laneUpdate_bit {n o b c : Nat} (hn : n ≤ 8) (ho : o < 2) (hb : b < 8) (hc : c < 8) (l : Nat → Level)
    (sh : Shadow) (i : Nat) :
    (Shadow.get ((List.range n).foldl (fun sh k => laneUpdate sh (2 * k + o) b (l k)) sh) i).getLsbD c =
      if i % 2 = o ∧ i / 2 < n ∧ c = b then l (i / 2) else (Shadow.get sh i).getLsbD c := by
  induction n with
  | zero => simp
  | succ n ih =>
    rw [List.range_succ, List.foldl_append, List.foldl_cons, List.foldl_nil,
      laneUpdate_bit _ _ _ _ _ _ (by omega) hb hc, ih (by omega)]
    by_cases hi : i = 2 * n + o
    · have hhalf : i / 2 = n := by omega
      have hpar : i % 2 = o := by omega
      simp [← hi, hhalf, hpar]
    · have hlane : i % 2 = o ∧ i / 2 < n + 1 ∧ c = b ↔ i % 2 = o ∧ i / 2 < n ∧ c = b := by omega
      simp only [hi, false_and, if_false, hlane]

/-- The bits of a position (R85): one bit of each even lane up to position 7, of each odd lane for 8 and 9. -/
theorem belongsTo_iff {p i b : Nat} :
    belongsTo p i b = true ↔ (p ≤ 7 ∧ i % 2 = 0 ∧ b = p) ∨ (8 ≤ p ∧ p ≤ 9 ∧ i % 2 = 1 ∧ b = p - 8) := by
  unfold belongsTo
  split
  · simp only [Bool.and_eq_true, beq_iff_eq]
    omega
  · split
    · simp only [Bool.and_eq_true, beq_iff_eq]
      omega
    · simp only [Bool.false_eq_true, false_iff]
      omega

/-- R80 for one update: no lane is touched. -/
theorem anodeUpdate_of_ge {p : Nat} (hp : 10 ≤ p) (sh : Shadow) (g : Byte) : anodeUpdate sh p g = sh := by
  rw [anodeUpdate, if_neg (by omega), if_neg (by omega)]

/-- ANODE_UPDATE bit by bit (R79, R85). -/
theorem anodeUpdate_bit (sh : Shadow) (p : Nat) (g : Byte) {i b : Nat} (hi : i < 16) (hb : b < 8) :
    (Shadow.get (anodeUpdate sh p g) i).getLsbD b =
      if belongsTo p i b then g.getLsbD (i / 2) else (Shadow.get sh i).getLsbD b := by
  rw [if_congr belongsTo_iff rfl rfl]
  obtain hp | hp | hp : p ≤ 7 ∨ (8 ≤ p ∧ p ≤ 9) ∨ 10 ≤ p := by omega
  · have heven := foldl_laneUpdate_bit (n := 8) (o := 0) (b := p) (by omega) (by omega) (by omega) hb g.getLsbD sh i
    rw [anodeUpdate, if_pos hp]
    exact heven.trans (if_congr (by omega) rfl rfl)
  · have hodd := foldl_laneUpdate_bit (n := 8) (o := 1) (b := p - 8) (by omega) (by omega) (by omega) hb g.getLsbD sh i
    rw [anodeUpdate, if_neg (by omega), if_pos hp.2]
    exact hodd.trans (if_congr (by omega) rfl rfl)
  · rw [anodeUpdate_of_ge hp, if_neg (by omega)]

/-- Settles O37: the update loop writes one bit of each even lane up to position 7, of each odd lane for 8 and 9, and no lane
from 10 up, which are the bits that belong to the position. -/
theorem anodeUpdateBits : Obligations.AnodeUpdateBits := fun sh p g _ _ hi hb => anodeUpdate_bit sh p g hi hb

/-! ### The glyph at a position (R86) -/

theorem getLsbD_byteOfLevels_map_range (f : Nat → Level) {k : Nat} (hk : k < 8) :
    (byteOfLevels ((List.range 8).map f)).getLsbD k = f k :=
  (getLsbD_byteOfLevels (f 0) (f 1) (f 2) (f 3) (f 4) (f 5) (f 6) (f 7) k).trans (by interval_cases k <;> rfl)

theorem getLsbD_positionGlyph (sh : Shadow) (p : Nat) {k : Nat} (hk : k < 8) :
    (positionGlyph sh p).getLsbD k =
      if p ≤ 7 then (Shadow.get sh (2 * k)).getLsbD p else (Shadow.get sh (2 * k + 1)).getLsbD (p - 8) :=
  getLsbD_byteOfLevels_map_range _ hk

/-- An update puts its glyph at its own position and leaves the glyph at every other position 0..9 (R85, R86). -/
theorem positionGlyph_anodeUpdate (sh : Shadow) (p : Nat) (g : Byte) {q : Nat} (hq : q ≤ 9) :
    positionGlyph (anodeUpdate sh p g) q = if p = q then g else positionGlyph sh q := by
  refine BitVec.eq_of_getLsbD_eq fun k hk => ?_
  rw [getLsbD_positionGlyph _ _ hk, apply_ite (BitVec.getLsbD · k), getLsbD_positionGlyph _ _ hk]
  by_cases h7 : q ≤ 7
  · have hown : belongsTo p (2 * k) q = true ↔ p = q := belongsTo_iff.trans (by omega)
    rw [if_pos h7, if_pos h7, anodeUpdate_bit _ _ _ (by omega) (by omega), if_congr hown rfl rfl,
      show 2 * k / 2 = k by omega]
  · have hown : belongsTo p (2 * k + 1) (q - 8) = true ↔ p = q := belongsTo_iff.trans (by omega)
    rw [if_neg h7, if_neg h7, anodeUpdate_bit _ _ _ (by omega) (by omega), if_congr hown rfl rfl,
      show (2 * k + 1) / 2 = k by omega]

theorem shadow_get_zero (i : Nat) : Shadow.get (Vector.replicate 16 0) i = 0 := by
  rw [Shadow.get, Vector.toList_replicate, List.getD_eq_getElem?_getD, List.getElem?_getD_replicate_default_eq]

theorem positionGlyph_zero (p : Nat) : positionGlyph (Vector.replicate 16 0) p = 0 := by
  refine BitVec.eq_of_getLsbD_eq fun k hk => ?_
  rw [getLsbD_positionGlyph _ _ hk, shadow_get_zero, shadow_get_zero]
  simp

/-! ### A run of glyphs (R81) -/

@[simp] theorem anodeUpdates_nil (sh : Shadow) (p : Nat) : anodeUpdates sh p [] = sh := rfl

@[simp] theorem anodeUpdates_cons (sh : Shadow) (p : Nat) (g : Byte) (gs : List Byte) :
    anodeUpdates sh p (g :: gs) = anodeUpdates (anodeUpdate sh p g) (p + 1) gs := rfl

theorem anodeUpdates_eq_foldl_zipIdx (sh : Shadow) (p : Nat) (gs : List Byte) :
    anodeUpdates sh p gs = (gs.zipIdx p).foldl (fun sh x => anodeUpdate sh x.2 x.1) sh := by
  induction gs generalizing sh p with
  | nil => rfl
  | cons g gs ih => rw [anodeUpdates_cons, ih, List.zipIdx_cons, List.foldl_cons]

theorem anodeUpdates_of_ge {p : Nat} (hp : 10 ≤ p) (sh : Shadow) (gs : List Byte) : anodeUpdates sh p gs = sh := by
  induction gs generalizing p with
  | nil => rfl
  | cons g gs ih => rw [anodeUpdates_cons, anodeUpdate_of_ge hp, ih (by omega)]

/-- R80 for a run: only its glyphs for positions up to 9 count. -/
theorem anodeUpdates_take (sh : Shadow) (p : Nat) (gs : List Byte) :
    anodeUpdates sh p gs = anodeUpdates sh p (gs.take (10 - p)) := by
  induction gs generalizing sh p with
  | nil => rw [List.take_nil]
  | cons g gs ih =>
    by_cases hp : 10 ≤ p
    · rw [anodeUpdates_of_ge hp, anodeUpdates_of_ge hp]
    · rw [show 10 - p = (10 - (p + 1)) + 1 by omega, List.take_succ_cons, anodeUpdates_cons, anodeUpdates_cons, ih]

/-- Settles O38: no lane is written from position 10 up, and a run reaches such a position after its first 10 - p glyphs. -/
theorem anodePositionsPastNine : Obligations.AnodePositionsPastNine :=
  fun sh p g gs => ⟨fun hp => anodeUpdate_of_ge hp sh g, anodeUpdates_take sh p gs⟩

/-- After a run each of its positions 0..9 holds its glyph, every other position 0..9 the one it held. -/
theorem positionGlyph_anodeUpdates (sh : Shadow) (p : Nat) (gs : List Byte) {q : Nat} (hq : q ≤ 9) :
    positionGlyph (anodeUpdates sh p gs) q =
      if p ≤ q ∧ q < p + gs.length then gs.getD (q - p) 0x00 else positionGlyph sh q := by
  induction gs generalizing sh p with
  | nil => rw [anodeUpdates_nil, List.length_nil, if_neg (by omega)]
  | cons g gs ih =>
    rw [anodeUpdates_cons, ih, positionGlyph_anodeUpdate _ _ _ hq, List.length_cons]
    obtain rfl | hlt | hgt : p = q ∨ p < q ∨ q < p := by omega
    · rw [if_neg (by omega), if_pos rfl, if_pos (by omega), Nat.sub_self, List.getD_cons_zero]
    · have hsub : q - p = (q - (p + 1)) + 1 := by omega
      rw [if_neg (Nat.ne_of_lt hlt), hsub, List.getD_cons_succ]
      exact if_congr (by omega) rfl rfl
    · rw [if_neg (by omega), if_neg (by omega), if_neg (by omega)]

/-! ### Any sequence of updates (R86) -/

theorem lastWritten_cons (p : Nat) (u : Nat × Byte) (us : List (Nat × Byte)) :
    lastWritten p (u :: us) =
      if us.any (fun v => v.1 == p) then lastWritten p us else if u.1 = p then u.2 else 0x00 := rfl

theorem lastWritten_of_not_any {p : Nat} {us : List (Nat × Byte)} (h : ¬ us.any (fun v => v.1 == p) = true) :
    lastWritten p us = 0x00 := by
  cases us with
  | nil => rfl
  | cons u us =>
    rw [List.any_cons, Bool.or_eq_true, beq_iff_eq, not_or] at h
    rw [lastWritten_cons, if_neg h.2, if_neg h.1]

/-- After any sequence of updates a position 0..9 holds the glyph last written there, and if none was, the one it held. -/
theorem positionGlyph_foldl_anodeUpdate (us : List (Nat × Byte)) (sh : Shadow) {p : Nat} (hp : p ≤ 9) :
    positionGlyph (us.foldl (fun sh u => anodeUpdate sh u.1 u.2) sh) p =
      if us.any (fun v => v.1 == p) then lastWritten p us else positionGlyph sh p := by
  induction us generalizing sh with
  | nil => rfl
  | cons u us ih =>
    rw [List.foldl_cons, ih, positionGlyph_anodeUpdate _ _ _ hp, lastWritten_cons]
    by_cases hlater : us.any (fun v => v.1 == p) = true
    · simp [hlater]
    · by_cases hhere : u.1 = p <;> simp [hlater, hhere]

/-- Settles O39: the loop as a fold, the run's glyphs by induction along it, and the last glyphs by induction over the
updates from a shadow whose every glyph is 0x00. -/
theorem shadowHoldsLastGlyphs : Obligations.ShadowHoldsLastGlyphs := by
  refine ⟨anodeUpdates_eq_foldl_zipIdx, fun sh p gs q hq => positionGlyph_anodeUpdates sh p gs hq, fun us p hp => ?_⟩
  rw [positionGlyph_foldl_anodeUpdate us _ hp, positionGlyph_zero]
  split
  next => rfl
  next hnone => exact (lastWritten_of_not_any hnone).symm

end Sys2Proof.Proofs
end

section
/-! PROOF. The cathode path: what it leaves in the block's shadow and in the peer (spec/42_display_register.md R78, R87). -/

namespace Sys2Proof.Proofs

open Sys2Proof.Machine Sys2Proof.Laws

@[simp] theorem setCathode_shadow (p : Byte) (gs : List Byte) (s : State) : (setCathode p gs s).shadow = s.shadow := by
  rw [setCathode, displayWrite_eq]

/-- The glyphs stand in PEER_RAM from address P up, every other address keeps its byte (R78, R48). -/
theorem setCathode_read {p : Byte} {gs : List Byte} (hp : p.toNat ≤ 15) (hlen : p.toNat + gs.length ≤ 16) (s : State)
    (a : Nat) :
    (setCathode p gs s).peer.ram.read a =
      if p.toNat ≤ a ∧ a < p.toNat + gs.length then gs[a - p.toNat]? else s.peer.ram.read a := by
  have hstart := startAddress_toNat p hp
  obtain ⟨hread, -⟩ := displayWrite_peer s.peer (startAddress p) gs (by rw [hstart]; exact hlen)
  rw [setCathode, displayWrite_eq, hread, hstart]

/-- SET_SINGLE on a READY CATHODE handle (R82, R83). -/
theorem exec_sets_cathode {s : State} (hl : s.life = .ready) (hd : s.dtype = .cathode) {p : Byte} (hp : p.toNat ≤ 15)
    (g : Byte) : exec (.sets p g) s = .next (returnOk none (setCathode p [g] s)) := by
  have hr : inRange p 1 [g] = true := (inRange_iff p 1 [g]).2 ⟨hp, Nat.add_le_add_right hp 1, rfl⟩
  have hset := setMulti_ready p 1 [g] s hl hr
  rw [hd] at hset
  exact hset

/-- Settles O36: SET_SINGLE is the cathode pass-through of one glyph, which is all that is stored and lands at P. -/
theorem cathodeRoundTrip : Obligations.CathodeRoundTrip := by
  intro s t p g hl hd hp h
  obtain rfl : returnOk none (setCathode p [g] s) = t :=
    Host.Outcome.next.inj ((exec_sets_cathode hl hd hp g).symm.trans h)
  refine ⟨setCathode_shadow p [g] s, fun a => ?_⟩
  rw [returnOk_peer, setCathode_read (gs := [g]) hp (Nat.add_le_add_right hp 1)]
  by_cases ha : a = p.toNat
  · subst ha
    simp
  · have hout : ¬ (p.toNat ≤ a ∧ a < p.toNat + [g].length) := by rw [List.length_singleton]; omega
    rw [if_neg hout, if_neg ha]

end Sys2Proof.Proofs
end

section
/-! PROOF. The two glyph encoders over any tables, and the extended alphabet R91 makes of a HEX_GLYPH and an OVERSCORE_CODE
(spec/43_glyph_rom.md R91 to R97). -/

namespace Sys2Proof.Proofs

open Sys2Proof.Machine Sys2Proof.Safety Sys2Proof.Laws

/-! ### The decimal point (R93, R97) -/

@[simp] theorem glyphKey_or_point (v : Byte) : glyphKey (v ||| 0x80) = glyphKey v := by
  have hpoint : (0x80 : Byte) &&& 0x7F = 0#8 := rfl
  rw [glyphKey, glyphKey, BitVec.and_or_distrib_right, hpoint, BitVec.or_zero]

@[simp] theorem dpFlag_or_point (v : Byte) : dpFlag (v ||| 0x80) = dpFlag v ||| 0x80 :=
  BitVec.and_or_distrib_right

theorem hexGlyph_or_point (rom : GlyphRom) (v : Byte) : hexGlyph rom (v ||| 0x80) = hexGlyph rom v ||| 0x80 := by
  rw [hexGlyph, hexGlyph, glyphKey_or_point, dpFlag_or_point, BitVec.or_assoc]

theorem charGlyph_or_point (rom : GlyphRom) (v : Byte) : charGlyph rom (v ||| 0x80) = charGlyph rom v ||| 0x80 := by
  rw [charGlyph, charGlyph, glyphKey_or_point, dpFlag_or_point, BitVec.or_assoc]

/-- Settles O42: the encoders are R94's and R95's by definition, and bit 7 of the input reaches the flag and not the key. -/
theorem decimalPointIndependent : Obligations.DecimalPointIndependent := fun rom v =>
  ⟨rfl, rfl, hexGlyph_or_point rom v, charGlyph_or_point rom v⟩

/-! ### The key of an input value (R93) -/

theorem glyphKey_toNat (v : Byte) : (glyphKey v).toNat = v.toNat % 128 := by
  rw [glyphKey, BitVec.toNat_and]
  exact Nat.and_two_pow_sub_one_eq_mod v.toNat 7

/-- A 7-bit code is its own key. -/
theorem glyphKey_of_lt {c : Byte} (h : c.toNat < 128) : glyphKey c = c :=
  BitVec.eq_of_toNat_eq (by rw [glyphKey_toNat, Nat.mod_eq_of_lt h])

/-- A 7-bit code has no decimal point. -/
theorem dpFlag_of_lt {c : Byte} (h : c.toNat < 128) : dpFlag c = 0#8 := by
  have hpoint : (0x7F : Byte) &&& 0x80 = 0#8 := rfl
  rw [← glyphKey_of_lt h, dpFlag, glyphKey, BitVec.and_assoc, hpoint, BitVec.and_zero]

/-- Settles O60: the default table's 128 entries, computed, are the statement's, and the lookup is at the key. -/
theorem charGlyphValues : Obligations.CharGlyphValues := by
  intro v
  rw [← glyphKey_toNat]
  rfl

/-! ### The extended alphabet (R91, R92, R96) -/

/-- The glyph of a 7-bit code is its entry in R91's table. -/
theorem charGlyph_ofParams (hex : Vector Byte 16) (overscore : Byte) {c : Byte} (h : c.toNat < 128) :
    charGlyph (GlyphRom.ofParams hex overscore) c = charDefaultAt hex overscore c := by
  rw [charGlyph, glyphKey_of_lt h, dpFlag_of_lt h, BitVec.or_zero, charAt_ofParams _ _ _ h, BitVec.ofNat_toNat,
    BitVec.setWidth_eq]

/-- The codes 0..15 are the hex digits in both encoders (R91, R94). -/
theorem charGlyph_eq_hexGlyph (hex : Vector Byte 16) (overscore : Byte) {c : Byte} (h : c.toNat ≤ 15) :
    charGlyph (GlyphRom.ofParams hex overscore) c = hexGlyph (GlyphRom.ofParams hex overscore) c := by
  have h128 : c.toNat < 128 := by omega
  rw [charGlyph_ofParams hex overscore h128, charDefaultAt, if_pos h, hexGlyph, glyphKey_of_lt h128, dpFlag_of_lt h128,
    if_pos h, hexAt_ofParams, BitVec.or_zero]

/-- A list of rows has no entry for a code exactly when no row is for it. -/
theorem lookup_eq_none_iff_notMem_keys (rows : List (Byte × Byte)) (c : Byte) :
    rows.lookup c = none ↔ c ∉ rows.map Prod.fst := by
  rw [List.lookup_eq_none_iff, List.mem_map, not_exists]
  exact forall_congr' fun row => by simp [eq_comm (a := c)]

/-- The model's rows of R91 are for the listed codes. -/
theorem lookup_eq_none_iff_notMem_listedCodes (c : Byte) :
    (charRowsAtoH ++ charRowsItoP ++ charRowsQtoY ++ charRowsMarks).lookup c = none ↔ c ∉ listedCodes := by
  have hcodes : ((charRowsAtoH ++ charRowsItoP ++ charRowsQtoY ++ charRowsMarks).map Prod.fst).Perm listedCodes := by
    decide
  rw [lookup_eq_none_iff_notMem_keys, hcodes.mem_iff]

theorem listedCodes_bounds {c : Byte} (hc : c ∈ listedCodes) : 16 ≤ c.toNat ∧ c.toNat < 128 := by
  revert c
  decide

/-- A listed code has the same glyph whatever the parameters: neither HEX_GLYPH nor OVERSCORE_CODE takes it (assumption 18). -/
theorem charGlyph_of_listed (hex : Vector Byte 16) (overscore : Byte) {c : Byte} (hc : c ∈ listedCodes) :
    charGlyph (GlyphRom.ofParams hex overscore) c = charGlyph GlyphRom.default c := by
  obtain ⟨h16, h128⟩ := listedCodes_bounds hc
  obtain ⟨g, hg⟩ := Option.ne_none_iff_exists'.1 (mt (lookup_eq_none_iff_notMem_listedCodes c).1 (not_not.2 hc))
  have hrow (hex : Vector Byte 16) (overscore : Byte) : charDefaultAt hex overscore c = g := by
    rw [charDefaultAt, if_neg (by omega), hg, Option.getD_some]
  rw [GlyphRom.default, charGlyph_ofParams _ _ h128, charGlyph_ofParams _ _ h128, hrow, hrow]

/-- A 7-bit code above 15 that R91 does not list is the overscore's or blank. -/
theorem charGlyph_of_not_listed (hex : Vector Byte 16) (overscore : Byte) {c : Byte} (h16 : 16 ≤ c.toNat)
    (h128 : c.toNat < 128) (hc : c ∉ listedCodes) :
    charGlyph (GlyphRom.ofParams hex overscore) c = if c = overscore then 0x01 else 0x00 := by
  rw [charGlyph_ofParams hex overscore h128, charDefaultAt, if_neg (by omega),
    (lookup_eq_none_iff_notMem_listedCodes c).2 hc, Option.getD_none]

/-- A letter listed in one case only has one glyph for both its codes, whatever the parameters (R92). -/
theorem charGlyph_eq_lowerCase (hex : Vector Byte 16) (overscore : Byte) {c : Byte}
    (hc : c ∈ ([0x41, 0x43, 0x44, 0x45, 0x46, 0x4A, 0x50, 0x51, 0x52, 0x53, 0x54, 0x59] : List Byte)) :
    charGlyph (GlyphRom.ofParams hex overscore) c = charGlyph (GlyphRom.ofParams hex overscore) (c ||| 0x20) ∧
      charGlyph (GlyphRom.ofParams hex overscore) c ≠ 0x00 := by
  obtain ⟨hupper, hlower, hdefault⟩ : c ∈ listedCodes ∧ c ||| 0x20 ∈ listedCodes ∧
      charGlyph GlyphRom.default c = charGlyph GlyphRom.default (c ||| 0x20) ∧ charGlyph GlyphRom.default c ≠ 0x00 := by
    revert c
    decide
  rw [charGlyph_of_listed hex overscore hupper, charGlyph_of_listed hex overscore hlower]
  exact hdefault

/-- 'B' is not listed: its glyph is the overscore's or blank, and that of 'b' is neither (R92, D11). -/
theorem charGlyph_upperB_ne_lowerB (hex : Vector Byte 16) (overscore : Byte) :
    charGlyph (GlyphRom.ofParams hex overscore) 0x42 ≠ charGlyph (GlyphRom.ofParams hex overscore) 0x62 := by
  rw [charGlyph_of_not_listed hex overscore (by decide) (by decide) (by decide),
    charGlyph_of_listed hex overscore (by decide)]
  split
  · decide
  · decide

/-- A letter listed in both cases has a glyph for each, whatever the parameters (R92). -/
theorem charGlyph_ne_lowerCase (hex : Vector Byte 16) (overscore : Byte) {c : Byte}
    (hc : c ∈ ([0x47, 0x48, 0x49, 0x4C, 0x4E, 0x4F, 0x55] : List Byte)) :
    charGlyph (GlyphRom.ofParams hex overscore) c ≠ charGlyph (GlyphRom.ofParams hex overscore) (c ||| 0x20) := by
  obtain ⟨hupper, hlower, hdefault⟩ : c ∈ listedCodes ∧ c ||| 0x20 ∈ listedCodes ∧
      charGlyph GlyphRom.default c ≠ charGlyph GlyphRom.default (c ||| 0x20) := by
    revert c
    decide
  rw [charGlyph_of_listed hex overscore hupper, charGlyph_of_listed hex overscore hlower]
  exact hdefault

/-- Settles O44: a code is listed, and then its glyph is the default table's, or is a hex digit, or is the overscore's or
blank; the decimal point is put back by R97. -/
theorem charGlyphCases : Obligations.CharGlyphCases := by
  intro hex overscore rom
  refine ⟨fun c hc => charGlyph_eq_lowerCase hex overscore hc, List.forall_mem_cons.2
      ⟨charGlyph_upperB_ne_lowerB hex overscore, fun c hc => charGlyph_ne_lowerCase hex overscore hc⟩,
    charGlyph_of_listed hex overscore (by decide), charGlyph_of_listed hex overscore (by decide),
    charGlyph_of_listed hex overscore (by decide), fun h16 h128 hc => ?_,
    fun c hc => charGlyph_eq_hexGlyph hex overscore hc, fun c h16 h128 hc hne => ?_⟩
  · rw [charGlyph_or_point, charGlyph_of_not_listed hex overscore h16 h128 hc, if_pos rfl]
    decide
  · rw [charGlyph_or_point, charGlyph_of_not_listed hex overscore h16 h128 hc, if_neg hne]
    decide

end Sys2Proof.Proofs
end

section
/-! PROOF. The key decoder bit by bit, in its closed form and as the source's procedure (spec/44_key_scan.md R102 to
R104). Each is read at mask bit r*8 + c as the raw bit of the key in row r, column c. -/

namespace Sys2Proof.Proofs

open Sys2Proof.Machine

/-- The raw bit of the key in row `r`, column `c`: byte c/2, the lower nibble for an even column, the upper for an odd
one (R102). -/
def rawKey (bs : List Byte) (r c : Nat) : Level := (rawByte bs (c / 2)).getLsbD (r + 4 * (c % 2))

theorem rawKey_even (bs : List Byte) (r j : Nat) : rawKey bs r (2 * j) = (rawByte bs j).getLsbD r := by
  simp [rawKey]

theorem rawKey_odd (bs : List Byte) (r j : Nat) : rawKey bs r (2 * j + 1) = (rawByte bs j).getLsbD (r + 4) := by
  have hbyte : (2 * j + 1) / 2 = j := by omega
  have hnibble : (2 * j + 1) % 2 = 1 := by omega
  rw [rawKey, hbyte, hnibble]

theorem getLsbD_bitWord (l : Level) (k : Nat) : (bitWord l).getLsbD k = (l && decide (k = 0)) := by
  cases l with
  | false => simp [bitWord]
  | true => simp [bitWord, BitVec.getLsbD_one]

/-! ### The closed form (R103) -/

theorem getLsbD_maskBit {i : Nat} (hi : i < 32) (l : Level) (mask : Word) (k : Nat) :
    (maskBit i l mask).getLsbD k = (mask.getLsbD k || (l && decide (k = i))) := by
  have hshift : (bitWord l <<< i).getLsbD k = (l && decide (k = i)) := by
    have hplace : k = i ↔ (k < 32 ∧ ¬ k < i) ∧ k - i = 0 := by omega
    rw [BitVec.getLsbD_shiftLeft, getLsbD_bitWord]
    simp only [hplace, Bool.decide_and, decide_not, Bool.and_left_comm]
  rw [maskBit, BitVec.getLsbD_or, hshift]

/-- The inner loop of R103 over the first `n` bytes: it writes columns 0 to 2n - 1 of row `r`. -/
theorem getLsbD_foldl_maskBit {n r : Nat} (hn : n ≤ 4) (hr : r < 3) (bs : List Byte) (mask : Word) (k : Nat) :
    ((List.range n).foldl (fun mask j =>
      maskBit (r * 8 + 2 * j + 1) ((rawByte bs j).getLsbD (r + 4))
        (maskBit (r * 8 + 2 * j) ((rawByte bs j).getLsbD r) mask)) mask).getLsbD k =
      (mask.getLsbD k || (decide (k / 8 = r ∧ k % 8 < 2 * n) && rawKey bs r (k % 8))) := by
  induction n with
  | zero => simp
  | succ n ih =>
    rw [List.range_succ, List.foldl_append, List.foldl_cons, List.foldl_nil, getLsbD_maskBit (by omega),
      getLsbD_maskBit (by omega), ih (by omega), ← rawKey_even, ← rawKey_odd]
    have heven : k = r * 8 + 2 * n ↔ k / 8 = r ∧ k % 8 = 2 * n := by omega
    have hodd : k = r * 8 + 2 * n + 1 ↔ k / 8 = r ∧ k % 8 = 2 * n + 1 := by omega
    have hcols : k % 8 < 2 * (n + 1) ↔ k % 8 < 2 * n ∨ k % 8 = 2 * n ∨ k % 8 = 2 * n + 1 := by omega
    simp only [heven, hodd, hcols]
    by_cases h0 : k % 8 = 2 * n
    · simp [h0, Bool.and_comm]
    · by_cases h1 : k % 8 = 2 * n + 1
      · simp [h1, Bool.and_comm]
      · simp [h0, h1]

/-- A loop over rows 0 to n - 1, each step writing the eight bits of its row, gives the raw bit of every key of those
rows and 0 above (R103, R104). -/
theorem getLsbD_foldl_rows {bs : List Byte} {rowStep : Word → Nat → Word} {n : Nat}
    (hstep : ∀ (mask : Word) (r k : Nat), r < n →
      (rowStep mask r).getLsbD k = (mask.getLsbD k || (decide (k / 8 = r) && rawKey bs r (k % 8)))) (k : Nat) :
    ((List.range n).foldl rowStep 0).getLsbD k = (decide (k / 8 < n) && rawKey bs (k / 8) (k % 8)) := by
  induction n with
  | zero => simp
  | succ n ih =>
    rw [List.range_succ, List.foldl_append, List.foldl_cons, List.foldl_nil, hstep _ _ _ (Nat.lt_succ_self n),
      ih fun mask r k hr => hstep mask r k (Nat.lt_succ_of_lt hr)]
    by_cases hrow : k / 8 = n
    · simp [hrow]
    · have hold : k / 8 < n + 1 ↔ k / 8 < n := by omega
      simp [hrow, hold]

/-- KEYDECODE bit by bit: bits 0 to 23 are the keys' raw bits, row by row, the rest 0 (R103, R105). -/
theorem getLsbD_keyDecode (bs : List Byte) (k : Nat) :
    (keyDecode bs).getLsbD k = (decide (k / 8 < 3) && rawKey bs (k / 8) (k % 8)) := by
  refine getLsbD_foldl_rows (fun mask r k hr => ?_) k
  have hcol : k % 8 < 2 * 4 := by omega
  rw [getLsbD_foldl_maskBit le_rfl hr]
  simp only [hcol, and_true]

/-- The mask bit of the key in row `r`, column `c` (R103). -/
theorem getLsbD_keyDecode_key {r c : Nat} (hr : r < 3) (hc : c < 8) (bs : List Byte) :
    (keyDecode bs).getLsbD (r * 8 + c) = rawKey bs r c := by
  have hrow : (r * 8 + c) / 8 = r := by omega
  have hcol : (r * 8 + c) % 8 = c := by omega
  rw [getLsbD_keyDecode, hrow, hcol, decide_eq_true hr, Bool.true_and]

/-- Settles O49: columns 2j and 2j + 1 of row `r` are bits `r` and `r + 4` of byte j; the two vectors are computed. -/
theorem keyDecodeBits : Obligations.KeyDecodeBits := by
  refine ⟨fun b0 b1 b2 b3 r j hr hj => ⟨?_, ?_⟩, by decide, by decide⟩
  · exact (getLsbD_keyDecode_key hr (by omega) _).trans (rawKey_even _ r j)
  · rw [Nat.add_assoc]
    exact (getLsbD_keyDecode_key hr (by omega) _).trans (rawKey_odd _ r j)

/-! ### The source's procedure (R104) -/

/-- The accumulator step of R104: a one-place left shift, the new bit in place 0. -/
theorem getLsbD_shiftIn (acc : Word) (l : Level) (k : Nat) :
    ((acc <<< 1) ||| bitWord l).getLsbD k = if k = 0 then l else decide (k < 32) && acc.getLsbD (k - 1) := by
  rw [BitVec.getLsbD_or, BitVec.getLsbD_shiftLeft, getLsbD_bitWord]
  cases k with
  | zero => simp
  | succ k => simp

/-- The row accumulator of R104: the raw bits of the row's eight keys, by column. -/
theorem getLsbD_keyRow (bs : List Byte) (r c : Nat) :
    (keyRow bs r).getLsbD c = (decide (c < 8) && rawKey bs r c) := by
  simp only [keyRow, List.foldl_cons, List.foldl_nil, getLsbD_shiftIn]
  match c with
  | 0 | 1 | 2 | 3 | 4 | 5 | 6 | 7 => simp [rawKey]
  | c + 8 => simp

theorem getLsbD_keyRow_shiftLeft {r : Nat} (hr : r < 3) (bs : List Byte) (k : Nat) :
    (keyRow bs r <<< (8 * r)).getLsbD k = (decide (k / 8 = r) && rawKey bs r (k % 8)) := by
  rw [BitVec.getLsbD_shiftLeft, getLsbD_keyRow]
  by_cases hrow : k / 8 = r
  · have hcol : k - 8 * r = k % 8 := by omega
    have hword : k < 32 := by omega
    have hplace : ¬ k < 8 * r := by omega
    have hlt : k % 8 < 8 := by omega
    simp [hcol, hword, hplace, hlt, hrow]
  · have hout : k < 8 * r ∨ ¬ k - 8 * r < 8 := by omega
    obtain hlow | hhigh := hout
    · simp [hlow, hrow]
    · simp [hhigh, hrow]

/-- KEYDECODE_PROC bit by bit. -/
theorem getLsbD_keyDecodeProc (bs : List Byte) (k : Nat) :
    (keyDecodeProc bs).getLsbD k = (decide (k / 8 < 3) && rawKey bs (k / 8) (k % 8)) :=
  getLsbD_foldl_rows (fun mask r k hr => by rw [BitVec.getLsbD_or, getLsbD_keyRow_shiftLeft hr]) k

/-- Settles O50: both masks have the key's raw bit at every place. -/
theorem keyDecodeProcedureAgrees : Obligations.KeyDecodeProcedureAgrees := by
  intro b0 b1 b2 b3
  refine BitVec.eq_of_getLsbD_eq fun k _ => ?_
  rw [getLsbD_keyDecodeProc, getLsbD_keyDecode]

end Sys2Proof.Proofs
end

section
/-! PROOF. What a host operation reports to its caller, and the refusal mark of one that is admitted
(spec/60_exceptions.md R112, R113). -/

namespace Sys2Proof.Proofs

open Sys2Proof.Machine Sys2Proof.Laws

/-! ### The bus transport and the operations leave the refusal mark as it was -/

@[simp] theorem send_refusalMark (bs : List Byte) (s : State) : (send bs s).refusalMark = s.refusalMark := by
  rw [send_eq]

@[simp] theorem displayWrite_refusalMark (a : BitVec 4) (gs : List Byte) (s : State) :
    (displayWrite a gs s).refusalMark = s.refusalMark := by
  rw [displayWrite, send_refusalMark, send_refusalMark]

@[simp] theorem setCathode_refusalMark (p : Byte) (gs : List Byte) (s : State) :
    (setCathode p gs s).refusalMark = s.refusalMark :=
  displayWrite_refusalMark _ _ _

@[simp] theorem setAnode_refusalMark (p : Byte) (gs : List Byte) (s : State) :
    (setAnode p gs s).refusalMark = s.refusalMark :=
  displayWrite_refusalMark _ _ { s with shadow := anodeUpdates s.shadow p.toNat gs }

@[simp] theorem bringUp_refusalMark (d : DisplayType) (s : State) : (bringUp d s).refusalMark = s.refusalMark := by
  rw [bringUp_eq]

@[simp] theorem release_refusalMark (s : State) : (release s).refusalMark = s.refusalMark := by rw [release_eq]

@[simp] theorem scanKeys_refusalMark (s : State) : (scanKeys s).refusalMark = s.refusalMark := by
  obtain ⟨_, _, _, -, -, hscan⟩ := scanKeys_cases s
  rw [hscan]

/-! ### The status of the operations that do not end in a plain `returnOk` -/

@[simp] theorem bringUp_report (d : DisplayType) (s : State) : (bringUp d s).report = .returned .ok none :=
  returnOk_report _ _

@[simp] theorem release_report (s : State) : (release s).report = .returned .ok none := returnOk_report _ _

/-- SCAN_KEYS returns OK with a mask (R108, R112). -/
theorem scanKeys_report (s : State) : ∃ mask, (scanKeys s).report = .returned .ok (some mask) := by
  obtain ⟨_, _, _, -, -, hscan⟩ := scanKeys_cases s
  exact ⟨_, by rw [hscan]⟩

/-- Settles O16: of the outcomes of an instruction, a refusal is the first alternative, a wire command is no host operation,
and each of the others returns OK over a state whose mark it kept. -/
theorem statusIsOkWhenAdmitted : Obligations.StatusIsOkWhenAdmitted := by
  intro i s hhost
  obtain ⟨t, ht, hcases⟩ := exec_cases i s
  refine ⟨t, ht, ?_⟩
  obtain ⟨r, -, hrefuse⟩ | ⟨_, -, hinit⟩ | ⟨-, -, hdeinit⟩ | ⟨_, hwire, -, -⟩ | ⟨_, _, -, -, hconfig⟩ |
    ⟨_, _, -, -, -, -, -, hcathode⟩ | ⟨_, _, -, -, -, -, -, hanode⟩ | ⟨-, -, hscan⟩ := hcases
  · exact .inl ⟨r, hrefuse.trans (refuse_eq_refusedState r s)⟩
  · exact .inr ⟨none, by rw [hinit, bringUp_report], by rw [hinit, bringUp_refusalMark]⟩
  · exact .inr ⟨none, by rw [hdeinit, release_report], by rw [hdeinit, release_refusalMark]⟩
  · rw [hwire] at hhost
    cases hhost
  · exact .inr ⟨none, by rw [hconfig, returnOk_report], by rw [hconfig, returnOk_refusalMark, send_refusalMark]⟩
  · exact .inr ⟨none, by rw [hcathode, returnOk_report], by rw [hcathode, returnOk_refusalMark, setCathode_refusalMark]⟩
  · exact .inr ⟨none, by rw [hanode, returnOk_report], by rw [hanode, returnOk_refusalMark, setAnode_refusalMark]⟩
  · obtain ⟨mask, hmask⟩ := scanKeys_report s
    exact .inr ⟨some mask, by rw [hscan, hmask], by rw [hscan, scanKeys_refusalMark]⟩

end Sys2Proof.Proofs
end

section
/-! PROOF. The delay units of each operation (spec/70_reset_and_hazards.md R134): those of the events that the transport
prescribes, then the events each operation adds to the trace. -/

namespace Sys2Proof.Proofs

open Sys2Proof.Machine Sys2Proof.Safety Sys2Proof.Laws

/-! ### The delay units of the transport's events (spec/40_bus_transport.md R66, R67, R69) -/

@[simp] theorem delayUnits_append (es fs : List Event) : delayUnits (es ++ fs) = delayUnits es + delayUnits fs := by
  induction es with
  | nil => exact (Nat.zero_add _).symm
  | cons e es ih =>
    cases e with
    | delay n => simp [delayUnits, ih, Nat.add_assoc]
    | stb | clk | dioDir | dioDrive | dioSample | platInit | platDeinit => exact ih

/-- Bits, or bytes, of `k` delay units each. -/
theorem delayUnits_flatMap {α : Type} {f : α → List Event} {k : Nat} (hf : ∀ x, delayUnits (f x) = k) (xs : List α) :
    delayUnits (xs.flatMap f) = k * xs.length := by
  induction xs with
  | nil => rfl
  | cons x xs ih => rw [List.flatMap_cons, delayUnits_append, hf, ih, List.length_cons, Nat.mul_succ, Nat.add_comm]

theorem delayUnits_writeBitEvents (l : Level) : delayUnits (writeBitEvents l) = 2 := rfl

theorem delayUnits_readBitEvents (l : Level) : delayUnits (readBitEvents l) = 2 := rfl

theorem delayUnits_writeByteEvents (b : Byte) : delayUnits (writeByteEvents b) = 16 :=
  delayUnits_flatMap delayUnits_writeBitEvents (bitsOf b)

/-- The eight bits and the inter-byte delay (R67). -/
theorem delayUnits_readByteEvents (b : Byte) : delayUnits (readByteEvents b) = 18 := by
  rw [readByteEvents, delayUnits_append, delayUnits_flatMap delayUnits_readBitEvents]
  rfl

@[simp] theorem delayUnits_writeEvents (bs : List Byte) : delayUnits (writeEvents bs) = 16 * bs.length :=
  delayUnits_flatMap delayUnits_writeByteEvents bs

@[simp] theorem delayUnits_readEvents (bs : List Byte) : delayUnits (readEvents bs) = 5 + 18 * bs.length :=
  congrArg (5 + ·) (delayUnits_flatMap delayUnits_readByteEvents bs)

@[simp] theorem delayUnits_sendEvents (bs : List Byte) : delayUnits (sendEvents bs) = 16 * bs.length := by
  simp [sendEvents, delayUnits]

@[simp] theorem delayUnits_xferEvents (cmd : Byte) (bs : List Byte) :
    delayUnits (xferEvents cmd bs) = 21 + 18 * bs.length := by
  simp only [xferEvents, delayUnits, delayUnits_append, delayUnits_writeEvents, delayUnits_readEvents,
    List.length_singleton]
  omega

/-! ### The events each operation adds -/

@[simp] theorem newEvents_returnOk (m : Option Word) (s t : State) : newEvents s (returnOk m t) = newEvents s t := rfl

@[simp] theorem newEvents_refuse (r : Reason) (s : State) : newEvents s (refuse r s) = [] :=
  newEvents_of_append _ _ _ (List.append_nil _).symm

@[simp] theorem newEvents_writeBytes (bs : List Byte) (s : State) : newEvents s (writeBytes bs s) = writeEvents bs := by
  obtain ⟨_, hwrite⟩ := writeBytes_any bs s
  exact newEvents_of_append _ _ _ (by rw [hwrite])

/-- READ_BYTES(n) adds the events of reading some n bytes. -/
theorem newEvents_readBytes (n : Nat) (s : State) :
    ∃ bs, bs.length = n ∧ newEvents s (readBytes n s).2 = readEvents bs := by
  obtain ⟨bs, _, _, hlen, hread⟩ := readBytes_any n s
  exact ⟨bs, hlen, newEvents_of_append _ _ _ (by rw [hread])⟩

@[simp] theorem newEvents_send (bs : List Byte) (s : State) : newEvents s (send bs s) = sendEvents bs :=
  newEvents_of_append _ _ _ (by rw [send_eq])

@[simp] theorem newEvents_setCathode (p : Byte) (gs : List Byte) (s : State) :
    newEvents s (setCathode p gs s) = sendEvents [0x40] ++ sendEvents (cmdAddr (startAddress p) :: gs) :=
  newEvents_of_append _ _ _ (by rw [setCathode, displayWrite_eq])

@[simp] theorem newEvents_setAnode (p : Byte) (gs : List Byte) (s : State) :
    newEvents s (setAnode p gs s) =
      sendEvents [0x40] ++ sendEvents (cmdAddr 0 :: memRead (anodeUpdates s.shadow p.toNat gs) 0 16) :=
  newEvents_of_append _ _ _ (by rw [setAnode, displayWrite_eq])

/-- SCAN_KEYS adds the events of reading some four bytes (R108). -/
theorem newEvents_scanKeys (s : State) : ∃ bs, bs.length = 4 ∧ newEvents s (scanKeys s) = xferEvents 0x42 bs := by
  obtain ⟨bs, _, _, hlen, -, hscan⟩ := scanKeys_cases s
  exact ⟨bs, hlen, newEvents_of_append _ _ _ (by rw [hscan])⟩

@[simp] theorem newEvents_bringUp (d : DisplayType) (s : State) : newEvents s (bringUp d s) = initEvents :=
  newEvents_of_append _ _ _ (by rw [bringUp_eq])

@[simp] theorem newEvents_release (s : State) : newEvents s (release s) = [.platDeinit] :=
  newEvents_of_append _ _ _ (by rw [release_eq])

/-! ### The life-cycle operations, CONFIG_DISPLAY and SCAN_KEYS -/

/-- The READY check of R17 on a READY handle. -/
theorem whenReady_of_life_ready {s : State} (hl : s.life = .ready) (rest : Host.Outcome State Fault Refusal) :
    whenReady s rest = rest := if_pos hl

theorem delayUnits_init {x : Byte} {s t : State} (h : exec (.init x) s = .next t) :
    delayUnits (newEvents s t) = 0 := by
  change execInit x s = .next t at h
  rw [execInit] at h
  split at h
  next d _ =>
    cases h
    rw [newEvents_bringUp]
    rfl
  next =>
    cases h
    rw [newEvents_refuse]
    rfl

theorem delayUnits_deinit {s t : State} (h : exec .deinit s = .next t) : delayUnits (newEvents s t) = 0 := by
  by_cases hl : s.life = .ready
  · obtain rfl : release s = t := Host.Outcome.next.inj ((whenReady_of_life_ready hl _).symm.trans h)
    rw [newEvents_release]
    rfl
  · obtain rfl : refuse .notReady s = t := Host.Outcome.next.inj ((exec_of_life_ne_ready rfl rfl hl).symm.trans h)
    rw [newEvents_refuse]
    rfl

theorem delayUnits_config {br on : Byte} {s t : State} (hl : s.life = .ready) (h : exec (.config br on) s = .next t) :
    delayUnits (newEvents s t) = 16 := by
  obtain rfl : returnOk none (send [cmdDisp br (onFlag on)] s) = t :=
    Host.Outcome.next.inj ((whenReady_of_life_ready hl _).symm.trans h)
  rw [newEvents_returnOk, newEvents_send, delayUnits_sendEvents, List.length_singleton]

theorem delayUnits_scan {s t : State} (hl : s.life = .ready) (h : exec .scan s = .next t) :
    delayUnits (newEvents s t) = 93 := by
  obtain rfl : scanKeys s = t := Host.Outcome.next.inj ((whenReady_of_life_ready hl _).symm.trans h)
  obtain ⟨bs, hlen, hscan⟩ := newEvents_scanKeys s
  rw [hscan, delayUnits_xferEvents, hlen]

/-! ### The set-position family -/

/-- How many glyphs a set operation writes: N of R82, one in the single forms (R83, R99, R101); nothing else writes any. -/
def glyphCount : Instr → Nat
  | .setm _ n _ | .setmHex _ n _ | .setmChar _ n _ => n.toNat
  | .sets _ _ | .setsHex _ _ | .setsChar _ _ => 1
  | .dataWrite | .dataRead | .addrSet _ | .dispCtrl _ _ | .init _ | .deinit | .config _ _ | .scan => 0

/-- A well-formed run of glyphs is in range, and N is the length of its payload (R61). -/
theorem inRange_and_length_of_rangeOk {p n : Byte} {v : List Byte} (h : rangeOk p n v = true) :
    inRange p n v = true ∧ v.length = n.toNat := by
  have hrange : inRange p n v = true := by
    rw [inRange_iff]
    simpa [rangeOk, and_assoc] using h
  obtain ⟨-, -, hlen⟩ := (inRange_iff p n v).1 hrange
  exact ⟨hrange, hlen⟩

theorem inRange_single {p : Byte} (h : positionOk p = true) (g : Byte) : inRange p 1 [g] = true := by
  have hp : p.toNat ≤ 15 := of_decide_eq_true h
  exact (inRange_iff p 1 [g]).2 ⟨hp, Nat.add_le_add_right hp 1, rfl⟩

/-- A well-formed set operation is an admitted SET_MULTI of its glyphs (R82, R83, R98 to R101). -/
theorem exec_setOp_eq_setMulti {i : Instr} (hs : isSetOp i = true) (hw : i.WellFormed) (s : State) :
    ∃ p n gs, exec i s = setMulti p n gs s ∧ inRange p n gs = true ∧ gs.length = glyphCount i := by
  cases i with
  | sets p g => exact ⟨p, 1, [g], rfl, inRange_single hw g, rfl⟩
  | setm p n v => exact ⟨p, n, v, rfl, inRange_and_length_of_rangeOk hw⟩
  | setsHex p v => exact ⟨p, 1, [hexGlyph s.rom v], setMultiGlyphs_eq _ p 1 [v] s, inRange_single hw _, rfl⟩
  | setmHex p n v =>
    obtain ⟨hrange, hlen⟩ := inRange_and_length_of_rangeOk hw
    exact ⟨p, n, v.map (hexGlyph s.rom), setMultiGlyphs_eq _ p n v s, (inRange_map p n v _).trans hrange,
      (List.length_map _).trans hlen⟩
  | setsChar p v => exact ⟨p, 1, [charGlyph s.rom v], setMultiGlyphs_eq _ p 1 [v] s, inRange_single hw _, rfl⟩
  | setmChar p n v =>
    obtain ⟨hrange, hlen⟩ := inRange_and_length_of_rangeOk hw
    exact ⟨p, n, v.map (charGlyph s.rom), setMultiGlyphs_eq _ p n v s, (inRange_map p n v _).trans hrange,
      (List.length_map _).trans hlen⟩
  | dataWrite | dataRead | addrSet | dispCtrl | init | deinit | config | scan => cases hs

/-- The anode path always sends the whole shadow, so its delay does not depend on N (R81). -/
theorem delayUnits_setOp_anode {i : Instr} {s t : State} (h : exec i s = .next t) (hs : isSetOp i = true)
    (hw : i.WellFormed) (hl : s.life = .ready) (hd : s.dtype = .anode) : delayUnits (newEvents s t) = 288 := by
  obtain ⟨p, n, gs, hexec, hr, -⟩ := exec_setOp_eq_setMulti hs hw s
  rw [hexec, setMulti_ready p n gs s hl hr, hd] at h
  obtain rfl : returnOk none (setAnode p gs s) = t := Host.Outcome.next.inj h
  rw [newEvents_returnOk, newEvents_setAnode, delayUnits_append, delayUnits_sendEvents, delayUnits_sendEvents,
    List.length_singleton, List.length_cons, memRead_length]

/-- The cathode path sends a command, an address and the glyphs (R77, R78). -/
theorem delayUnits_setOp_cathode {i : Instr} {s t : State} (h : exec i s = .next t) (hs : isSetOp i = true)
    (hw : i.WellFormed) (hl : s.life = .ready) (hd : s.dtype = .cathode) :
    delayUnits (newEvents s t) = 16 * glyphCount i + 32 := by
  obtain ⟨p, n, gs, hexec, hr, hlen⟩ := exec_setOp_eq_setMulti hs hw s
  rw [hexec, setMulti_ready p n gs s hl hr, hd] at h
  obtain rfl : returnOk none (setCathode p gs s) = t := Host.Outcome.next.inj h
  rw [newEvents_returnOk, newEvents_setCathode, delayUnits_append, delayUnits_sendEvents, delayUnits_sendEvents,
    List.length_singleton, List.length_cons, hlen]
  omega

/-- Settles O27: the events of each operation are known, and a written byte takes 16 units, a read byte 18, the turn to
reading 5; the six set operations are SET_MULTI on either path. -/
theorem delayUnitsOfOperations : Obligations.DelayUnitsOfOperations := by
  intro s
  refine ⟨fun bs => ?_, fun n => ?_, fun _ _ => delayUnits_init, fun _ => delayUnits_deinit, fun hl =>
    ⟨fun _ _ _ => delayUnits_config hl, fun _ => delayUnits_scan hl,
      fun _ _ hs hw hd h => delayUnits_setOp_anode h hs hw hl hd, fun p n v t hr hd h => ?_, fun p x t hp hd h => ?_⟩⟩
  · rw [newEvents_writeBytes, delayUnits_writeEvents]
  · obtain ⟨bs, hlen, hread⟩ := newEvents_readBytes n s
    rw [hread, delayUnits_readEvents, hlen]
  · obtain h | h | h := h <;> exact delayUnits_setOp_cathode h rfl hr hl hd
  · obtain h | h | h := h <;> exact delayUnits_setOp_cathode h rfl hp hl hd

end Sys2Proof.Proofs
end

section
/-! PROOF. The two encodings: decoding what was encoded, and encoding what was decoded (spec/30_encoding.md R51 to R60). -/

namespace Sys2Proof.Proofs

open Sys2Proof.Laws Sys2Proof.Safety

/-! ### Wire bytes (R55, R56) -/

theorem decodeWire_cmdAddr (a : BitVec 4) : decodeWire (cmdAddr a) = .ok (.addrSet a) := by
  revert a
  decide

theorem decodeWire_cmdDisp (on : Bool) (br : BitVec 3) :
    decodeWire (cmdDisp (br.setWidth 8) on) = .ok (.dispCtrl on br) := by
  revert on br
  decide

/-- Settles O1: a wire command's operands are the low bits of its byte, a host operation's are the fields of its word. -/
theorem decodeOfEncode : Obligations.DecodeOfEncode := by
  intro i
  cases i with
  | dataWrite => rfl
  | dataRead => rfl
  | addrSet a => exact decodeWire_cmdAddr a
  | dispCtrl on br => exact decodeWire_cmdDisp on br
  | init | deinit | config | sets | setm | setsHex | setmHex | setsChar | setmChar | scan =>
    exact decode_encode_of_isHostOp rfl

theorem cmdAddr_of_highBits {b : Byte} (h : b &&& 0xF0 = 0xC0) : cmdAddr (b.extractLsb' 0 4) = b := by
  revert b
  decide +kernel

theorem cmdDisp_of_highBits {b : Byte} (h : b &&& 0xF0 = 0x80) :
    cmdDisp ((b.extractLsb' 0 3).setWidth 8) (b.getLsbD 3) = b := by
  revert b
  decide +kernel

/-- A wire byte that decodes is the one its instruction encodes to. -/
theorem encode_of_decodeWire {b : Byte} {i : Instr} (h : decodeWire b = .ok i) : encode i = .wire b := by
  unfold decodeWire at h
  split at h
  next hb => cases h; rw [hb]; rfl
  next =>
    split at h
    next hb => cases h; rw [hb]; rfl
    next =>
      split at h
      next hb => cases h; exact congrArg _ (cmdAddr_of_highBits hb)
      next =>
        split at h
        next hb => cases h; exact congrArg _ (cmdDisp_of_highBits hb)
        next => cases h

theorem highBits_addr_iff (b : Byte) : b &&& 0xF0 = 0xC0 ↔ 0xC0 ≤ b.toNat ∧ b.toNat ≤ 0xCF := by
  revert b
  decide +kernel

theorem highBits_disp_iff (b : Byte) : b &&& 0xF0 = 0x80 ↔ 0x80 ≤ b.toNat ∧ b.toNat ≤ 0x8F := by
  revert b
  decide +kernel

/-- The decoder's four tests are R55's four patterns. -/
theorem decodeWire_isOk_iff (b : Byte) : (∃ i, decodeWire b = .ok i) ↔ emittedCommand b = true := by
  have hpatterns : emittedCommand b = true ↔ b = 0x40 ∨ b = 0x42 ∨ b &&& 0xF0 = 0xC0 ∨ b &&& 0xF0 = 0x80 := by
    rw [highBits_addr_iff, highBits_disp_iff]
    simp [emittedCommand, or_assoc]
  rw [hpatterns, decodeWire]
  split_ifs with h40 h42 haddr hdisp
  · exact iff_of_true ⟨_, rfl⟩ (.inl h40)
  · exact iff_of_true ⟨_, rfl⟩ (.inr (.inl h42))
  · exact iff_of_true ⟨_, rfl⟩ (.inr (.inr (.inl haddr)))
  · exact iff_of_true ⟨_, rfl⟩ (.inr (.inr (.inr hdisp)))
  · exact iff_of_false nofun (not_or.2 ⟨h40, not_or.2 ⟨h42, not_or.2 ⟨haddr, hdisp⟩⟩⟩)

/-- Settles O4: the decoder's four tests are the four patterns, two of them by their high bits. -/
theorem wireBytesDecoded : Obligations.WireBytesDecoded := decodeWire_isOk_iff

/-! ### Host words (R59) -/

theorem accept_eq_ok_iff {ok : Bool} {i j : Instr} : accept ok i = .ok j ↔ ok = true ∧ i = j := by
  cases ok <;> simp [accept]

/-- A word whose reserved fields are 0 is the host word of its operation and its operand fields. -/
theorem hostWord_of_op {w : Word} {k : Nat} (hop : (opField w).toNat = k) (hres : reservedZero w = true) :
    hostWord (BitVec.ofNat 4 k) (aField w) (bField w) = w := by
  rw [← hop, BitVec.ofNat_toNat, BitVec.setWidth_eq, hostWord_of_fields w hres]

/-- A host word that decodes is, with its payload, the one its operation encodes to. -/
theorem encode_of_decodeHost {w : Word} {payload : List Byte} {i : Instr} (h : decodeHost w payload = .ok i) :
    encode i = .host w payload := by
  unfold decodeHost at h
  dsimp only at h
  split at h
  case h_11 => cases h
  all_goals
    next hop =>
    obtain ⟨hok, rfl⟩ := accept_eq_ok_iff.1 h
    have hw := hostWord_of_op hop
    simp_all [encode]

/-- Settles O2: the encoder puts back the byte's low bits, and the word's fields. -/
theorem encodeOfDecode : Obligations.EncodeOfDecode := by
  intro e i h
  cases e with
  | wire b => exact encode_of_decodeWire h
  | host w payload => exact encode_of_decodeHost h

end Sys2Proof.Proofs
end

section
/-! PROOF. What the state is after an instruction, field by field, in each of its outcomes: the record that every fact about
one instruction or one step is read off. -/

namespace Sys2Proof.Proofs

open Sys2Proof.Machine Sys2Proof.Safety Sys2Proof.Laws

/-- The state after instruction `i` on `s` (R17, R72 to R76, R82, R108 to R110). A field not named keeps its value. -/
inductive ExecResult (i : Instr) (s : State) : State → Prop
  /-- Refused (R113). -/
  | refused (r : Reason) (hhost : i.isHostOp = true) :
    ExecResult i s { s with refusalMark := true, report := .refused r }
  /-- INITIALIZE; a transaction left open is committed when STB rises (R50, R109). -/
  | initialized (d : DisplayType) (hinit : isInit i = true) :
    ExecResult i s { s with
      life := .ready
      dtype := d
      shadow := Vector.replicate 16 0
      pins := { stb := true, clk := true, dioDir := .output, dioOut := true }
      trace := s.trace ++ initEvents
      rx := Receiver.closed
      peer := if s.rx.isOpen then s.peer.commit s.rx.items else s.peer
      report := .returned .ok none }
  /-- DEINITIALIZE (R110). -/
  | released (hi : i = .deinit) (hready : s.life = .ready) :
    ExecResult i s { s with
      life := .deinit
      pins := Config.inert
      trace := s.trace ++ [.platDeinit]
      report := .returned .ok none }
  /-- A wire command or CONFIG_DISPLAY: one command byte sent (R72 to R76). -/
  | commanded (c : Byte) (rep : Report) (hemit : emittedCommand c = true) (hdeinit : i ≠ .deinit)
    (hrep : rep = s.report ∨ rep = .returned .ok none) :
    ExecResult i s { s with
      pins := { stb := true, clk := true, dioDir := .output, dioOut := c.getLsbD 7 }
      trace := s.trace ++ sendEvents [c]
      rx := Receiver.closed
      peer := s.peer.commit (written [c])
      report := rep }
  /-- A set-position operation on either path: `gs` displayed from address `a`, `sh` the shadow (R77, R78, R81). -/
  | displayed (a : BitVec 4) (gs : List Byte) (sh : Shadow) (hset : isSetOp i = true) (hready : s.life = .ready)
    (hlen : gs.length ≤ 16)
    (hsh : sh = s.shadow ∨ s.dtype = .anode ∧ ∃ p us, sh = anodeUpdates s.shadow p us) :
    ExecResult i s { s with
      shadow := sh
      pins := { stb := true, clk := true, dioDir := .output, dioOut := lastLevel true gs }
      trace := s.trace ++ (sendEvents [0x40] ++ sendEvents (cmdAddr a :: gs))
      rx := Receiver.closed
      peer := (s.peer.dataCommand 0x40).addrCommand (cmdAddr a) gs
      report := .returned .ok none }
  /-- SCAN_KEYS (R108). -/
  | scanned (bs : List Byte) (d : Nat) (m : Word) (hi : i = .scan) (hlen : bs.length = 4) :
    ExecResult i s { s with
      pins := { stb := true, clk := true, dioDir := .input, dioOut := false }
      trace := s.trace ++ xferEvents 0x42 bs
      rx := Receiver.closed
      peer := s.peer.dataCommand 0x42
      draws := d
      report := .returned .ok (some m) }

/-- An instruction has one of these results. -/
theorem execResult_of_exec {i : Instr} {s t : State} (h : exec i s = .next t) : ExecResult i s t := by
  obtain ⟨t', ht', hcases⟩ := exec_cases i s
  obtain rfl : t = t' := Host.Outcome.next.inj (h.symm.trans ht')
  obtain ⟨r, hhost, rfl⟩ | ⟨d, hinit, rfl⟩ | ⟨hi, hready, rfl⟩ | ⟨c, hwire, hemit, rfl⟩ | ⟨br, on, hi, -, rfl⟩ |
    ⟨p, gs, hset, hready, -, -, hlen, rfl⟩ | ⟨p, gs, hset, hready, hd, -, -, rfl⟩ | ⟨hi, -, rfl⟩ := hcases
  · exact .refused r hhost
  · rw [bringUp_eq]
    exact .initialized d hinit
  · rw [release_eq]
    exact .released hi hready
  · rw [send_eq]
    exact .commanded c s.report hemit (by rintro rfl; cases hwire) (.inl rfl)
  · rw [send_eq]
    exact .commanded _ _ (emitted_cmdDisp br (onFlag on)) (by rw [hi]; exact nofun) (.inr rfl)
  · rw [setCathode, displayWrite_eq]
    exact .displayed (startAddress p) gs s.shadow hset hready (by omega) (.inl rfl)
  · rw [setAnode, displayWrite_eq, returnOk]
    -- The update of the shadow is inside the record that `displayWrite_eq` updates.
    dsimp only
    exact .displayed 0 _ _ hset hready (memRead_length _ 0 16).le (.inr ⟨hd, p.toNat, gs, rfl⟩)
  · obtain ⟨bs, d, m, hlen, -, hscan⟩ := scanKeys_cases s
    rw [hscan]
    exact .scanned bs d _ hi hlen

/-! ### One instruction -/

/-- Settles O8: each arm of `exec_cases` answers a next state. -/
theorem execAlwaysCompletes : Obligations.ExecAlwaysCompletes := by
  intro i s
  obtain ⟨t, ht, -⟩ := exec_cases i s
  exact ⟨t, ht⟩

theorem trace_prefix_of_exec {i : Instr} {s t : State} (h : exec i s = .next t) : s.trace <+: t.trace := by
  cases execResult_of_exec h with
  | refused => exact List.prefix_refl _
  | initialized | released | commanded | displayed | scanned => exact List.prefix_append _ _

theorem refusalMark_of_exec {i : Instr} {s t : State} (h : exec i s = .next t) (hmark : s.refusalMark = true) :
    t.refusalMark = true := by
  cases execResult_of_exec h with
  | refused => rfl
  | initialized | released | commanded | displayed | scanned => exact hmark

/-- Settles O19: an instruction's results name these fields in INITIALIZE's, DEINITIALIZE's and the anode path's only. -/
theorem whoWritesTheBlockState : Obligations.WhoWritesTheBlockState := by
  intro i s t h hi
  cases execResult_of_exec h with
  | initialized d hinit => rw [hinit] at hi; cases hi
  | released hdeinit => exact ⟨fun hne => absurd hdeinit hne, rfl, fun _ => rfl⟩
  | displayed a gs sh hset hready hlen hsh =>
    refine ⟨fun _ => rfl, rfl, fun hkeep => ?_⟩
    obtain hsh | ⟨hanode, -⟩ := hsh
    · exact hsh
    · simp [hset, hanode] at hkeep
  | refused | commanded | scanned => exact ⟨fun _ => rfl, rfl, fun _ => rfl⟩

/-- Settles O26: every result but a refusal and DEINITIALIZE's names the levels and the receiver. -/
theorem idleLevelsHigh : Obligations.IdleLevelsHigh := by
  intro i s t hdeinit h hadmitted
  cases execResult_of_exec h with
  | refused r => exact absurd rfl (hadmitted r)
  | released hi => exact absurd hi hdeinit
  | initialized | commanded | displayed | scanned => exact ⟨rfl, rfl, rfl⟩

/-! ### One step -/

/-- Settles O10: the old trace is a prefix of the new one, and `newEvents` is the rest. -/
theorem traceOnlyGrows : Obligations.TraceOnlyGrows := by
  intro s t h
  have hprefix : s.trace <+: t.trace := by
    obtain ⟨-, rfl⟩ | ⟨_, rest, -, ⟨_, rfl⟩ | ⟨_, rfl⟩ | ⟨_, hexec⟩⟩ := step_cases s t h
    · exact List.prefix_refl _
    · exact List.prefix_refl _
    · exact List.prefix_refl _
    · exact trace_prefix_of_exec (s := { s with inputs := rest }) hexec
  exact (List.prefix_iff_eq_append.1 hprefix).symm

/-- Settles O15: of a step's outcomes only a refusal writes the mark, and it sets it. -/
theorem refusalMarkStays : Obligations.RefusalMarkStays := by
  intro s t h hmark
  obtain ⟨-, rfl⟩ | ⟨_, rest, -, ⟨_, rfl⟩ | ⟨_, rfl⟩ | ⟨_, hexec⟩⟩ := step_cases s t h
  · exact hmark
  · rfl
  · exact hmark
  · exact refusalMark_of_exec (s := { s with inputs := rest }) hexec hmark

theorem step_of_inputs_eq_nil {s : State} (h : s.inputs = []) : step s = .next s := by
  simp [step, fetch, h]

theorem fetch_of_inputs_eq_cons {s : State} {x : Input} {rest : List Input} (h : s.inputs = x :: rest) :
    fetch s = issue x { s with inputs := rest } := by
  simp [fetch, h]

theorem step_of_fetch_run {s s' : State} {i : Instr} (h : fetch s = .run i s') : step s = exec i s' := by
  simp [step, h]

theorem step_of_fetch_done {s s' : State} (h : fetch s = .done s') : step s = .next s' := by
  simp [step, h]

theorem step_of_fetch_reserved {s : State} {b : Byte} (h : fetch s = .reserved b) :
    step s = .refused (.reservedCommand b) := by
  simp [step, h]

/-- Settles O5: a call that decodes and does not overlap is fetched as its instruction. -/
theorem stepRunsHostOperation : Obligations.StepRunsHostOperation := by
  intro s w payload rest i hinputs hdecode
  change decodeHost w payload = .ok i at hdecode
  refine step_of_fetch_run ((fetch_of_inputs_eq_cons hinputs).trans ?_)
  simp [issue, hdecode]

theorem step_of_overlapping_call {s : State} {w : Word} {payload : List Byte} {rest : List Input}
    (hinputs : s.inputs = .call w payload true :: rest) :
    step s = .next (refusedState { s with inputs := rest } .reentrant) :=
  step_of_fetch_done (fetch_of_inputs_eq_cons hinputs)

theorem step_of_undecodable_call {s : State} {w : Word} {payload : List Byte} {rest : List Input} {e : DecodeError}
    (hinputs : s.inputs = .call w payload false :: rest) (hdecode : decodeHost w payload = .error e) :
    step s = .next (refusedState { s with inputs := rest } .badWord) := by
  refine step_of_fetch_done ((fetch_of_inputs_eq_cons hinputs).trans ?_)
  simp [issue, hdecode, refuse_eq_refusedState]

/-- Settles O6: a wire byte that decodes is fetched as its instruction. -/
theorem stepRunsWireCommand : Obligations.StepRunsWireCommand := by
  intro s b rest i hinputs hdecode
  change decodeWire b = .ok i at hdecode
  refine step_of_fetch_run ((fetch_of_inputs_eq_cons hinputs).trans ?_)
  simp [issue, hdecode]

theorem step_of_undecodable_command {s : State} {b : Byte} {rest : List Input} {e : DecodeError}
    (hinputs : s.inputs = .command b :: rest) (hdecode : decodeWire b = .error e) :
    step s = .refused (.reservedCommand b) := by
  refine step_of_fetch_reserved ((fetch_of_inputs_eq_cons hinputs).trans ?_)
  simp [issue, hdecode]

theorem step_of_keys {s : State} {k : BitVec 24} {rest : List Input} (hinputs : s.inputs = .keys k :: rest) :
    step s = .next { s with inputs := rest, peer := { s.peer with regs := { s.peer.regs with keys := k } } } :=
  step_of_fetch_done (fetch_of_inputs_eq_cons hinputs)

/-- Settles O7: neither fetch has anything to run. -/
theorem idleAndKeyInput : Obligations.IdleAndKeyInput := fun _ => ⟨step_of_inputs_eq_nil, fun _ _ => step_of_keys⟩

/-- Settles O9: every input but a wire byte is refused, stored or run; a wire byte that does not decode is none of R55's. -/
theorem stepStopsOnlyOnReservedBytes : Obligations.StepStopsOnlyOnReservedBytes := by
  intro s
  cases hinputs : s.inputs with
  | nil => exact .inl ⟨s, step_of_inputs_eq_nil hinputs⟩
  | cons x rest =>
    have hrun (i : Instr) (hstep : step s = exec i { s with inputs := rest }) : ∃ t, step s = .next t := by
      rw [hstep]
      exact execAlwaysCompletes i _
    cases x with
    | call w payload overlaps =>
      cases overlaps with
      | true => exact .inl ⟨_, step_of_overlapping_call hinputs⟩
      | false =>
        cases hdecode : decodeHost w payload with
        | ok i => exact .inl (hrun i (stepRunsHostOperation s w payload rest i hinputs hdecode))
        | error e => exact .inl ⟨_, step_of_undecodable_call hinputs hdecode⟩
    | command b =>
      cases hdecode : decodeWire b with
      | ok i => exact .inl (hrun i (stepRunsWireCommand s b rest i hinputs hdecode))
      | error e =>
        refine .inr ⟨b, rest, rfl, ?_, step_of_undecodable_command hinputs hdecode⟩
        rw [Bool.eq_false_iff, Ne, ← decodeWire_isOk_iff, hdecode]
        exact nofun
    | keys k => exact .inl ⟨_, step_of_keys hinputs⟩

end Sys2Proof.Proofs
end

section
/-! PROOF. The invariant holds at power-on and every step keeps it (spec/10_state.md R16, R21, R22, 40_bus_transport.md R69,
R71, 60_exceptions.md R112, R113). -/

namespace Sys2Proof.Proofs

open Sys2Proof.Machine Sys2Proof.Safety Sys2Proof.Laws

/-! ### The odd lanes of the shadow (R22, D15) -/

/-- Bits 2 to 7 of the odd lanes are 0. -/
def OddLanesClear (sh : Shadow) : Prop := ∀ k, k < 8 → ∀ b, 2 ≤ b → (Shadow.get sh (2 * k + 1)).getLsbD b = false

theorem oddLanesClear_zero : OddLanesClear (Vector.replicate 16 0) := by
  intro k _ b _
  rw [shadow_get_zero]
  exact BitVec.getLsbD_zero

/-- Positions 8 and 9 have bits 0 and 1 of the odd lanes, and no other position has any bit of them (R85). -/
theorem belongsTo_oddLane_eq_false {p k b : Nat} (hb : 2 ≤ b) : belongsTo p (2 * k + 1) b = false := by
  rw [Bool.eq_false_iff, Ne, belongsTo_iff]
  omega

theorem OddLanesClear.anodeUpdate {sh : Shadow} (h : OddLanesClear sh) (p : Nat) (g : Byte) :
    OddLanesClear (anodeUpdate sh p g) := by
  intro k hk b hb
  by_cases hb8 : b < 8
  · rw [anodeUpdate_bit _ _ _ (by omega) hb8, belongsTo_oddLane_eq_false hb, if_neg Bool.false_ne_true]
    exact h k hk b hb
  · exact BitVec.getLsbD_of_ge _ _ (Nat.le_of_not_lt hb8)

theorem OddLanesClear.anodeUpdates {sh : Shadow} (h : OddLanesClear sh) (p : Nat) (gs : List Byte) :
    OddLanesClear (anodeUpdates sh p gs) := by
  induction gs generalizing sh p with
  | nil => exact h
  | cons g gs ih => exact ih (h.anodeUpdate p g) (p + 1)

/-! ### The steps -/

theorem inv_refuse {s : State} (h : Inv s) (r : Reason) : Inv (refuse r s) :=
  { h with
    neverFail := fun _ => nofun
    marked := fun _ _ => rfl }

/-- An instruction keeps the invariant, whichever of its results it has. -/
theorem inv_of_exec {i : Instr} {s t : State} (hs : Inv s) (h : exec i s = .next t) : Inv t := by
  have ⟨hidle, _, hodd, hzero, hram, hfail, hmarked⟩ := hs
  cases execResult_of_exec h with
  | refused r => exact inv_refuse hs r
  | initialized d =>
    have hcommit : (if s.rx.isOpen then s.peer.commit s.rx.items else s.peer).ram.wf = true := by
      rw [hidle]
      exact hram
    exact ⟨rfl, fun _ => ⟨rfl, rfl⟩, fun _ => oddLanesClear_zero, fun _ _ => rfl, hcommit, fun _ => nofun, fun _ => nofun⟩
  | released _ hready =>
    have hinit : s.life ≠ .uninit := by
      rw [hready]
      exact nofun
    exact ⟨hidle, nofun, fun _ => hodd hinit, fun _ => hzero hinit, hram, fun _ => nofun, fun _ => nofun⟩
  | commanded c rep _ _ hrep =>
    refine ⟨rfl, fun _ => ⟨rfl, rfl⟩, hodd, hzero, commit_wf _ _ hram, ?_, ?_⟩
    · obtain rfl | rfl := hrep
      · exact hfail
      · exact fun _ => nofun
    · obtain rfl | rfl := hrep
      · exact hmarked
      · exact fun _ => nofun
  | displayed a gs sh _ _ _ hsh =>
    refine ⟨rfl, fun _ => ⟨rfl, rfl⟩, fun hinit => ?_, fun hinit hd => ?_, stores_wf _ _ hram, fun _ => nofun, fun _ => nofun⟩
    · obtain rfl | ⟨-, p, us, rfl⟩ := hsh
      · exact hodd hinit
      · exact OddLanesClear.anodeUpdates (hodd hinit) p us
    · obtain rfl | ⟨hanode, -⟩ := hsh
      · exact hzero hinit hd
      · rw [hanode] at hd
        cases hd
  | scanned bs d m => exact ⟨rfl, fun _ => ⟨rfl, rfl⟩, hodd, hzero, hram, fun _ => nofun, fun _ => nofun⟩

/-- The invariant does not speak of the inputs still to come. -/
theorem inv_inputs {s : State} (h : Inv s) (rest : List Input) : Inv { s with inputs := rest } :=
  { h with }

/-- The invariant does not speak of the key matrix. -/
theorem inv_keys {s : State} (h : Inv s) (k : BitVec 24) :
    Inv { s with peer := { s.peer with regs := { s.peer.regs with keys := k } } } :=
  { h with }

/-- Settles O57: a step is idle, a refusal, a new key matrix, or an instruction on the state without its input. -/
theorem stepKeepsInvariant : Obligations.StepKeepsInvariant := by
  intro s t hs h
  obtain ⟨-, rfl⟩ | ⟨_, rest, -, ⟨r, rfl⟩ | ⟨k, rfl⟩ | ⟨_, hexec⟩⟩ := step_cases s t h
  · exact hs
  · exact inv_refuse (inv_inputs hs rest) r
  · exact inv_keys (inv_inputs hs rest) k
  · exact inv_of_exec (inv_inputs hs rest) hexec

theorem inv_powerOn (rom : GlyphRom) : Inv (State.powerOn rom) where
  idle := rfl
  pinsHigh := nofun
  oddLanes _ := oddLanesClear_zero
  cathodeZero _ _ := rfl
  ramCanonical := peerInit_wf
  neverFail _ := nofun
  marked _ := nofun

/-- Settles O58: no tables are named in any clause, so power-on with the default ones is an instance. -/
theorem resetMeetsInvariant : Obligations.ResetMeetsInvariant := ⟨inv_powerOn GlyphRom.default, inv_powerOn⟩

end Sys2Proof.Proofs
end

section
/-! PROOF. Which host operations are refused, and for which reason (spec/60_exceptions.md R113, R114), and what an admitted
INITIALIZE and DEINITIALIZE do (45_lifecycle.md R109, R110). -/

namespace Sys2Proof.Proofs

open Sys2Proof.Machine Sys2Proof.Safety Sys2Proof.Laws

/-! ### The life cycle -/

theorem displayType_eq_none_iff (t : Byte) : displayType t = none ↔ typeOk t = false := by
  revert t
  decide +kernel

theorem typeOk_eq_false_iff (t : Byte) : typeOk t = false ↔ 2 ≤ t.toNat := by
  revert t
  decide +kernel

/-- INITIALIZE is the one instruction of its kind. -/
theorem exists_eq_init_of_isInit {i : Instr} (h : isInit i = true) : ∃ t, i = .init t := by
  cases i with
  | init t => exact ⟨t, rfl⟩
  | dataWrite | dataRead | addrSet | dispCtrl | deinit | config | sets | setm | setsHex | setmHex | setsChar | setmChar
  | scan => cases h

theorem exec_init_of_displayType_eq_some {t : Byte} {d : DisplayType} (h : displayType t = some d) (s : State) :
    exec (.init t) s = .next (bringUp d s) := by
  change execInit t s = _
  rw [execInit, h]

/-- A display type other than 0 and 1 is refused (R109). -/
theorem exec_init_of_displayType_eq_none {t : Byte} (h : displayType t = none) (s : State) :
    exec (.init t) s = .next (refusedState s .badType) := by
  change execInit t s = _
  rw [execInit, h, refuse_eq_refusedState]

/-- Settles O14: a type from 2 up is no display type. -/
theorem badTypeRefused : Obligations.BadTypeRefused :=
  fun s t h => exec_init_of_displayType_eq_none ((displayType_eq_none_iff t).2 ((typeOk_eq_false_iff t).2 h)) s

/-- Settles O17: with the receiver closed no transaction is committed, so the peer is as before. -/
theorem initializeResult : Obligations.InitializeResult := by
  intro s t d hclosed htype
  have hd : displayType t = some d := by
    obtain ⟨rfl, rfl⟩ | ⟨rfl, rfl⟩ := htype
    · rfl
    · rfl
  rw [exec_init_of_displayType_eq_some hd, bringUp_eq, hclosed]
  rfl

theorem exec_deinit_of_ready {s : State} (h : s.life = .ready) : exec .deinit s = .next (release s) :=
  whenReady_of_life_ready h _

/-- Settles O18: READY passes the check, and what is left is `release_eq`. -/
theorem deinitializeResult : Obligations.DeinitializeResult := by
  intro s h
  rw [exec_deinit_of_ready h, release_eq]

/-! ### The set-position family -/

theorem inRange_eq_rangeOk (p n : Byte) (v : List Byte) : inRange p n v = rangeOk p n v := by
  rw [Bool.eq_iff_iff, inRange_iff]
  simp [rangeOk, and_assoc]

theorem inRange_single_eq_positionOk (p g : Byte) : inRange p 1 [g] = positionOk p := by
  have hsum : p.toNat + 1 ≤ 16 ↔ p.toNat ≤ 15 := by omega
  rw [Bool.eq_iff_iff, inRange_iff]
  simp [positionOk, hsum]

/-- Each set operation is SET_MULTI of the glyphs the tables give (R83, R98 to R101), in range exactly when R61 admits its
operands. -/
theorem exec_setOp {i : Instr} (hs : isSetOp i = true) (rom : GlyphRom) :
    ∃ p n gs, inRange p n gs = i.wellFormed ∧ ∀ s : State, s.rom = rom → exec i s = setMulti p n gs s := by
  cases i with
  | sets p g => exact ⟨p, 1, [g], inRange_single_eq_positionOk p g, fun _ _ => rfl⟩
  | setm p n v => exact ⟨p, n, v, inRange_eq_rangeOk p n v, fun _ _ => rfl⟩
  | setsHex p v =>
    exact ⟨p, 1, [hexGlyph rom v], inRange_single_eq_positionOk p _, fun s h => h ▸ setMultiGlyphs_eq _ p 1 [v] s⟩
  | setmHex p n v =>
    exact ⟨p, n, v.map (hexGlyph rom), (inRange_map p n v _).trans (inRange_eq_rangeOk p n v),
      fun s h => h ▸ setMultiGlyphs_eq _ p n v s⟩
  | setsChar p v =>
    exact ⟨p, 1, [charGlyph rom v], inRange_single_eq_positionOk p _, fun s h => h ▸ setMultiGlyphs_eq _ p 1 [v] s⟩
  | setmChar p n v =>
    exact ⟨p, n, v.map (charGlyph rom), (inRange_map p n v _).trans (inRange_eq_rangeOk p n v),
      fun s h => h ▸ setMultiGlyphs_eq _ p n v s⟩
  | dataWrite | dataRead | addrSet | dispCtrl | init | deinit | config | scan => cases hs

/-- A set operation with an operand outside R61 is refused (D4). -/
theorem exec_setOp_badRange {i : Instr} {s : State} (hs : isSetOp i = true) (hl : s.life = .ready)
    (hw : i.wellFormed = false) : exec i s = .next (refusedState s .badRange) := by
  obtain ⟨p, n, gs, hrange, hexec⟩ := exec_setOp hs s.rom
  rw [hexec s rfl, setMulti, whenReady_of_life_ready hl, hrange, hw, refuse_eq_refusedState]
  rfl

/-- An admitted set operation returns OK on either path (R82, R112). -/
theorem exec_setOp_returnsOk {i : Instr} {s : State} (hs : isSetOp i = true) (hl : s.life = .ready) (hw : i.WellFormed) :
    ∃ t m, exec i s = .next t ∧ t.report = .returned .ok m ∧ t.refusalMark = s.refusalMark := by
  obtain ⟨p, n, gs, hrange, hexec⟩ := exec_setOp hs s.rom
  refine ⟨_, none, (hexec s rfl).trans (setMulti_ready p n gs s hl (hrange.trans hw)), returnOk_report _ _, ?_⟩
  rw [returnOk_refusalMark]
  cases s.dtype with
  | cathode => exact setCathode_refusalMark p gs s
  | anode => exact setAnode_refusalMark p gs s

/-- Settles O12: each of these operations begins with the READY check. -/
theorem notReadyRefused : Obligations.NotReadyRefused := fun _ _ hhost hinit hl => exec_of_life_ne_ready hhost hinit hl

theorem positionOk_eq_false_iff (p : Byte) : positionOk p = false ↔ 16 ≤ p.toNat := by
  rw [positionOk, decide_eq_false_iff_not]
  omega

theorem rangeOk_eq_false_iff (p n : Byte) (v : List Byte) :
    rangeOk p n v = false ↔ 16 ≤ p.toNat ∨ 16 < p.toNat + n.toNat ∨ v.length ≠ n.toNat := by
  rw [← inRange_eq_rangeOk, Bool.eq_false_iff, Ne, inRange_iff]
  omega

/-- Settles O13: such operands are not well formed, in the single forms by P alone. -/
theorem badRangeRefused : Obligations.BadRangeRefused := by
  refine fun s hl => ⟨fun p x hp => ?_, fun p n v hr => ?_⟩
  · have hw := (positionOk_eq_false_iff p).2 hp
    exact ⟨exec_setOp_badRange rfl hl hw, exec_setOp_badRange rfl hl hw, exec_setOp_badRange rfl hl hw⟩
  · have hw := (rangeOk_eq_false_iff p n v).2 hr
    exact ⟨exec_setOp_badRange rfl hl hw, exec_setOp_badRange rfl hl hw, exec_setOp_badRange rfl hl hw⟩

/-! ### The outcome of a decoded host operation -/

/-- The reason a decoded host operation is refused for, in R114's order; none if it is admitted. -/
def operationReason (life : Life) (i : Instr) : Option Reason :=
  if isInit i = false ∧ life ≠ .ready then some .notReady
  else if i.wellFormed = false then some (if isInit i then .badType else .badRange)
  else none

theorem exec_of_operationReason_eq_some {i : Instr} {s : State} {r : Reason} (hhost : i.isHostOp = true)
    (h : operationReason s.life i = some r) : exec i s = .next (refusedState s r) := by
  unfold operationReason at h
  split_ifs at h with hlife hwf hinit
  · cases h
    exact exec_of_life_ne_ready hhost hlife.1 hlife.2
  · cases h
    obtain ⟨t, rfl⟩ := exists_eq_init_of_isInit hinit
    exact exec_init_of_displayType_eq_none ((displayType_eq_none_iff t).2 hwf) s
  · cases h
    have hready : s.life = .ready := by simpa [hinit] using hlife
    cases i with
    | init => exact absurd rfl hinit
    | dataWrite | dataRead | addrSet | dispCtrl | deinit | config | scan => cases hwf
    | sets | setm | setsHex | setmHex | setsChar | setmChar => exact exec_setOp_badRange rfl hready hwf

theorem exec_of_operationReason_eq_none {i : Instr} {s : State} (hhost : i.isHostOp = true)
    (h : operationReason s.life i = none) :
    ∃ t m, exec i s = .next t ∧ t.report = .returned .ok m ∧ t.refusalMark = s.refusalMark := by
  unfold operationReason at h
  split_ifs at h with hlife hwf
  have hready : isInit i = false → s.life = .ready := by simpa using hlife
  have hw : i.WellFormed := by simpa using hwf
  cases i with
  | dataWrite | dataRead | addrSet | dispCtrl => cases hhost
  | init t =>
    cases hd : displayType t with
    | none => exact absurd ((displayType_eq_none_iff t).1 hd) hwf
    | some d => exact ⟨_, none, exec_init_of_displayType_eq_some hd s, bringUp_report d s, bringUp_refusalMark d s⟩
  | deinit => exact ⟨release s, none, exec_deinit_of_ready (hready rfl), release_report s, release_refusalMark s⟩
  | config br on =>
    refine ⟨_, none, whenReady_of_life_ready (hready rfl) _, returnOk_report _ _, ?_⟩
    rw [returnOk_refusalMark, send_refusalMark]
  | scan =>
    obtain ⟨m, hreport⟩ := scanKeys_report s
    exact ⟨_, some m, whenReady_of_life_ready (hready rfl) _, hreport, scanKeys_refusalMark s⟩
  | sets | setm | setsHex | setmHex | setsChar | setmChar => exact exec_setOp_returnsOk rfl (hready rfl) hw

/-! ### The reason read off the word (R59, R113) -/

theorem opField_toNat (w : Word) : (opField w).toNat = w.toNat % 16 := by
  simp [opField]

theorem aField_toNat (w : Word) : (aField w).toNat = w.toNat / 256 % 256 := by
  simp [aField, Nat.shiftRight_eq_div_pow]

theorem bField_toNat (w : Word) : (bField w).toNat = w.toNat / 65536 % 256 := by
  simp [bField, Nat.shiftRight_eq_div_pow]

theorem reservedZero_eq_false_iff (w : Word) :
    reservedZero w = false ↔ w.toNat / 16 % 16 ≠ 0 ∨ w.toNat / 16777216 ≠ 0 := by
  have htop : w.toNat / 16777216 % 256 = w.toNat / 16777216 := Nat.mod_eq_of_lt (by omega)
  simp [reservedZero, ← BitVec.toNat_inj, Nat.shiftRight_eq_div_pow, htop, imp_iff_not_or]

/-- R59's bad words: a reserved field or an unused operand that is not 0, an operation from 10 up, or a payload for an
operation that takes none. -/
abbrev BadWord (w : Word) (payload : List Byte) : Prop :=
  reservedZero w = false ∨ 10 ≤ (opField w).toNat ∨ ((opField w).toNat = 0 ∧ bField w ≠ 0) ∨
    (((opField w).toNat = 1 ∨ (opField w).toNat = 9) ∧ (aField w ≠ 0 ∨ bField w ≠ 0)) ∨
    (payload ≠ [] ∧ ¬ ((opField w).toNat = 4 ∨ (opField w).toNat = 6 ∨ (opField w).toNat = 8))

theorem accept_eq_error_iff {ok : Bool} {i : Instr} {e : DecodeError} :
    accept ok i = .error e ↔ ok = false ∧ e = .badWord := by
  cases ok <;> simp [accept, eq_comm]

theorem badWord_of_decodeHost_eq_error {w : Word} {payload : List Byte} {e : DecodeError}
    (h : decodeHost w payload = .error e) : BadWord w payload := by
  unfold decodeHost at h
  dsimp only at h
  split at h
  case h_11 =>
    simp only [imp_false] at *
    exact .inr (.inl (by omega))
  case h_5 | h_7 | h_9 => exact .inl (accept_eq_error_iff.1 h).1
  all_goals
    next hop =>
    have hbad := (accept_eq_error_iff.1 h).1
    simp only [Bool.and_eq_false_iff, List.isEmpty_eq_false_iff, beq_eq_false_iff_ne] at hbad
    simp only [BadWord, hop]
    tauto

theorem not_badWord_of_decodeHost_eq_ok {w : Word} {payload : List Byte} {i : Instr}
    (h : decodeHost w payload = .ok i) : ¬ BadWord w payload := by
  have henc := encode_of_decodeHost h
  cases i with
  | dataWrite | dataRead | addrSet | dispCtrl => cases henc
  | init | deinit | config | sets | setm | setsHex | setmHex | setsChar | setmChar | scan =>
    obtain ⟨rfl, rfl⟩ := Encoded.host.inj henc
    simp [BadWord]

/-- R114's order, over the fields of the word. -/
theorem refusalReason_eq (life : Life) (w : Word) (payload : List Byte) :
    refusalReason life w payload false =
      if BadWord w payload then some .badWord
      else if (opField w).toNat ≠ 0 ∧ life ≠ .ready then some .notReady
      else if (opField w).toNat = 0 ∧ 2 ≤ (aField w).toNat then some .badType
      else if (((opField w).toNat = 3 ∨ (opField w).toNat = 5 ∨ (opField w).toNat = 7) ∧ 16 ≤ (aField w).toNat) ∨
        (((opField w).toNat = 4 ∨ (opField w).toNat = 6 ∨ (opField w).toNat = 8) ∧ (16 ≤ (aField w).toNat ∨
          16 < (aField w).toNat + (bField w).toNat ∨ payload.length ≠ (bField w).toNat)) then some .badRange
      else none := by
  have hzero (x : Byte) : x = 0 ↔ x.toNat = 0 := BitVec.toNat_inj.symm
  simp only [BadWord, reservedZero_eq_false_iff, hzero, opField_toNat, aField_toNat, bField_toNat, or_assoc, ne_eq]
  rfl

/-- A word that does not decode is a bad word. -/
theorem refusalReason_of_decodeHost_eq_error {w : Word} {payload : List Byte} {e : DecodeError}
    (h : decodeHost w payload = .error e) (life : Life) : refusalReason life w payload false = some .badWord := by
  rw [refusalReason_eq, if_pos (badWord_of_decodeHost_eq_error h)]

/-- A word that decodes is refused for its operation's reason. -/
theorem refusalReason_of_decodeHost_eq_ok {w : Word} {payload : List Byte} {i : Instr}
    (h : decodeHost w payload = .ok i) (life : Life) : refusalReason life w payload false = operationReason life i := by
  rw [refusalReason_eq, if_neg (not_badWord_of_decodeHost_eq_ok h)]
  have henc := encode_of_decodeHost h
  cases i with
  | dataWrite | dataRead | addrSet | dispCtrl => cases henc
  | init | deinit | config | sets | setm | setsHex | setmHex | setsChar | setmChar | scan =>
    obtain ⟨rfl, rfl⟩ := Encoded.host.inj henc
    simp [operationReason, isInit, Instr.wellFormed, typeOk_eq_false_iff, positionOk_eq_false_iff, rangeOk_eq_false_iff]

theorem isHostOp_of_decodeHost {w : Word} {payload : List Byte} {i : Instr} (h : decodeHost w payload = .ok i) :
    i.isHostOp = true := by
  have henc := encode_of_decodeHost h
  cases i with
  | dataWrite | dataRead | addrSet | dispCtrl => cases henc
  | init | deinit | config | sets | setm | setsHex | setmHex | setsChar | setmChar | scan => rfl

/-- Settles O11: an overlapping call and a bad word are refused at the input; a word that decodes has its operation's
reason, and the operation is refused for it or returns OK. -/
theorem hostOperationOutcome : Obligations.HostOperationOutcome := by
  intro s w payload overlaps rest hinputs
  cases overlaps with
  | true =>
    refine ⟨fun r hr => ?_, nofun⟩
    cases hr
    exact step_of_overlapping_call hinputs
  | false =>
    cases hdecode : decodeHost w payload with
    | error e =>
      rw [refusalReason_of_decodeHost_eq_error hdecode]
      refine ⟨fun r hr => ?_, nofun⟩
      cases hr
      exact step_of_undecodable_call hinputs hdecode
    | ok i =>
      have hhost := isHostOp_of_decodeHost hdecode
      rw [refusalReason_of_decodeHost_eq_ok hdecode, stepRunsHostOperation s w payload rest i hinputs hdecode]
      exact ⟨fun r => exec_of_operationReason_eq_some (s := { s with inputs := rest }) hhost,
        exec_of_operationReason_eq_none (s := { s with inputs := rest }) hhost⟩

end Sys2Proof.Proofs
end

section
/-! PROOF. The four wire commands and CONFIG_DISPLAY: one command byte sent, and what the peer makes of it
(spec/41_command_encoder.md R72 to R76, 20_memory.md R47). -/

namespace Sys2Proof.Proofs

open Sys2Proof.Machine Sys2Proof.Safety Sys2Proof.Laws

/-! ### The command a byte is to the peer (R47) -/

/-- One command byte sent, from the registers the peer has after it. -/
theorem commandSent_send {s : State} {c : Byte} {regs : PeerRegs}
    (h : s.peer.commit [.wr c] = { s.peer with regs := regs }) : CommandSent s (send [c] s) c regs := by
  have hwritten : written [c] = [.wr c] := rfl
  rw [CommandSent, send_eq, hwritten, h]
  rfl

theorem commit_cmdDataWrite (p : Peer) :
    p.commit [.wr cmdDataWrite] =
      { p with regs := { p.regs with mode := .write, amode := .auto, tmode := .normal } } := rfl

theorem commit_cmdDataRead (p : Peer) :
    p.commit [.wr cmdDataRead] = { p with regs := { p.regs with mode := .read, amode := .auto, tmode := .normal } } := rfl

theorem commit_cmdAddr (p : Peer) (a : BitVec 4) :
    p.commit [.wr (cmdAddr a)] = { p with regs := { p.regs with ptr := ptrField (cmdAddr a) } } := by
  simp [Peer.commit, kindField_cmdAddr, Peer.addrCommand, writtenBytes]

theorem kindField_cmdDisp (br : Byte) (on : Bool) : (kindField (cmdDisp br on)).toNat = 2 := by
  revert br on
  decide +kernel

/-- The on-bit and the brightness of a display-control command (R75). -/
theorem cmdDisp_fields (br : Byte) (on : Bool) :
    (cmdDisp br on).getLsbD 3 = on ∧ (cmdDisp br on).extractLsb' 0 3 = br.setWidth 3 := by
  revert br on
  decide +kernel

theorem commit_cmdDisp (p : Peer) (br : Byte) (on : Bool) :
    p.commit [.wr (cmdDisp br on)] = { p with regs := { p.regs with dispOn := on, bright := br.setWidth 3 } } := by
  obtain ⟨hon, hbr⟩ := cmdDisp_fields br on
  simp only [Peer.commit, kindField_cmdDisp, Peer.dispCommand, hon, hbr]

/-! ### The bytes as numbers (R55) -/

theorem cmdAddr_eq_ofNat (a : BitVec 4) : cmdAddr a = BitVec.ofNat 8 (0xC0 + a.toNat) := by
  rw [← cmdAddr_toNat, BitVec.ofNat_toNat, BitVec.setWidth_eq]

theorem cmdDisp_eq_ofNat (br : Byte) (on : Bool) :
    cmdDisp br on = BitVec.ofNat 8 (0x80 + 8 * on.toNat + br.toNat % 8) := by
  revert br on
  decide +kernel

/-! ### The operations -/

/-- Settles O29: 0x40 is a data command with no flag set. -/
theorem dataWriteResult : Obligations.DataWriteResult :=
  fun s => ⟨_, rfl, commandSent_send (commit_cmdDataWrite s.peer)⟩

/-- Settles O30: 0x42 is a data command with the read flag set. -/
theorem dataReadResult : Obligations.DataReadResult :=
  fun s => ⟨_, rfl, commandSent_send (commit_cmdDataRead s.peer)⟩

/-- Settles O31: an address command sets the pointer from its low bits. -/
theorem addrSetResult : Obligations.AddrSetResult := by
  intro s a
  rw [← cmdAddr_eq_ofNat]
  exact ⟨_, ptrField (cmdAddr a), ptrField_cmdAddr a, rfl, commandSent_send (commit_cmdAddr s.peer a)⟩

/-- Settles O32: three bits of brightness pass the mask of R75 as they are. -/
theorem dispCtrlResult : Obligations.DispCtrlResult := by
  intro s on br
  have hbyte : cmdDisp (br.setWidth 8) on = BitVec.ofNat 8 (0x80 + 8 * on.toNat + br.toNat) := by
    rw [cmdDisp_eq_ofNat, BitVec.toNat_setWidth]
    congr 2
    omega
  have hbright : (br.setWidth 8).setWidth 3 = br := by
    rw [BitVec.setWidth_setWidth_of_le _ (by omega), BitVec.setWidth_eq]
  have hcommit := commit_cmdDisp s.peer (br.setWidth 8) on
  rw [hbright] at hcommit
  rw [← hbyte]
  exact ⟨_, rfl, commandSent_send hcommit⟩

/-- Settles O33: the mask of R76 is the remainder by 8, and the on-flag is the number's being nonzero. -/
theorem configDisplayResult : Obligations.ConfigDisplayResult := by
  intro s br on hl
  have hon : onFlag on = decide (on.toNat ≠ 0) := decide_eq_decide.2 (not_congr BitVec.toNat_inj.symm)
  have hbyte : cmdDisp br (onFlag on) = BitVec.ofNat 8 (0x80 + (if on.toNat = 0 then 0 else 8) + br.toNat % 8) := by
    rw [cmdDisp_eq_ofNat, hon]
    by_cases hzero : on.toNat = 0 <;> simp [hzero]
  have hbright : br.setWidth 3 = BitVec.ofNat 3 (br.toNat % 8) := by
    rw [← BitVec.toNat_inj, BitVec.toNat_setWidth, BitVec.toNat_ofNat, Nat.mod_mod]
  have hsend : returnOk none (send [cmdDisp br (onFlag on)] s) =
      send [cmdDisp br (onFlag on)] { s with report := .returned .ok none } := by
    rw [send_eq, send_eq]
    rfl
  rw [← hbyte, ← hbright, ← hon]
  refine ⟨_, whenReady_of_life_ready hl _, ?_⟩
  rw [hsend]
  exact commandSent_send (commit_cmdDisp _ br (onFlag on))

end Sys2Proof.Proofs
end

section
/-! PROOF. SHADOW's primitives (spec/20_memory.md R31), and what the set-position family writes on either path
(42_display_register.md R77 to R83, 43_glyph_rom.md R98 to R101). -/

namespace Sys2Proof.Proofs

open Sys2Proof.Machine Sys2Proof.Safety Sys2Proof.Laws

/-! ### SHADOW (R31) -/

theorem shadow_get_memWrite (sh : Shadow) (i : Nat) (v : List Byte) (h : i + v.length ≤ 16) (j : Nat) :
    Shadow.get (memWrite sh i v) j = if i ≤ j ∧ j < i + v.length then v.getD (j - i) 0 else Shadow.get sh j := by
  induction v generalizing sh i with
  | nil => rw [if_neg (by rw [List.length_nil]; omega), memWrite]
  | cons b bs ih =>
    rw [List.length_cons] at h ⊢
    rw [memWrite, ih _ _ (by omega), shadow_get_put _ _ _ _ (by omega)]
    obtain rfl | hlt | hgt : j = i ∨ j < i ∨ i < j := by omega
    · rw [if_neg (by omega), if_pos rfl, if_pos (by omega), Nat.sub_self, List.getD_cons_zero]
    · rw [if_neg (by omega), if_neg (by omega), if_neg (by omega)]
    · have hsub : j - i = (j - (i + 1)) + 1 := by omega
      rw [if_neg (Nat.ne_of_gt hgt), hsub, List.getD_cons_succ]
      exact if_congr (by omega) rfl rfl

/-- Settles O41: both clauses are read off the byte at each index after the write. -/
theorem shadowReadAfterWrite : Obligations.ShadowReadAfterWrite := by
  refine fun sh i v h => ⟨List.ext_getElem (memRead_length _ _ _) fun k hk hv => ?_, fun j hj => ?_⟩
  · simp [memRead, shadow_get_memWrite sh i v h, hv]
  · rw [shadow_get_memWrite sh i v h, if_neg (by omega)]

/-! ### DISPLAY_WRITE and the two paths -/

/-- DISPLAY_WRITE on a state that already holds the new shadow, then the return (R77, R48). -/
theorem displayWritten_displayWrite {p : Byte} {gs : List Byte} (hp : p.toNat ≤ 15) (hlen : p.toNat + gs.length ≤ 16)
    (s : State) (sh : Shadow) :
    DisplayWritten s (returnOk none (displayWrite (startAddress p) gs { s with shadow := sh })) p gs sh := by
  have hstart := startAddress_toNat p hp
  obtain ⟨hread, hregs⟩ := displayWrite_peer s.peer (startAddress p) gs (by rw [hstart]; exact hlen)
  rw [hstart] at hread hregs
  have hptr : p.toNat + gs.length < 17 := by omega
  rw [displayWrite_eq, cmdAddr_start p hp]
  rw [cmdAddr_start p hp] at hread hregs
  refine ⟨rfl, ?_, ?_, hread⟩
  · rw [returnOk_peer, hregs ⟨_, hptr⟩ rfl]
  · rw [returnOk_peer, hregs ⟨_, hptr⟩ rfl]

/-- An admitted SET_MULTI writes on the handle's path (R82). -/
theorem setMulti_setDone {s : State} {p n : Byte} {gs : List Byte} (hl : s.life = .ready)
    (hr : inRange p n gs = true) : ∃ t, setMulti p n gs s = .next t ∧ SetDone s t p gs := by
  obtain ⟨hp, hsum, hlen⟩ := (inRange_iff p n gs).1 hr
  refine ⟨_, setMulti_ready p n gs s hl hr, fun hd => ?_, fun hd => ?_⟩
  · rw [hd]
    exact displayWritten_displayWrite hp (by omega) s s.shadow
  · have hall := displayWritten_displayWrite (p := 0) (gs := memRead (anodeUpdates s.shadow p.toNat gs) 0 16)
      (Nat.zero_le _) (by simp) s (anodeUpdates s.shadow p.toNat gs)
    rw [memRead_all] at hall
    rw [hd]
    exact hall

theorem inRange_of_bounds {p n : Byte} {v : List Byte} (hp : p.toNat ≤ 15) (hsum : p.toNat + n.toNat ≤ 16)
    (hlen : v.length = n.toNat) : inRange p n v = true := (inRange_iff p n v).2 ⟨hp, hsum, hlen⟩

theorem inRange_single_of_le {p : Byte} (hp : p.toNat ≤ 15) (g : Byte) : inRange p 1 [g] = true :=
  inRange_single (decide_eq_true hp) g

/-- The glyph operations write the glyphs of their values (R98, R100). -/
theorem setMultiGlyphs_setDone {s : State} {p n : Byte} {vs : List Byte} (glyph : Byte → Byte) (hl : s.life = .ready)
    (hr : inRange p n vs = true) : ∃ t, setMultiGlyphs glyph p n vs s = .next t ∧ SetDone s t p (vs.map glyph) := by
  rw [setMultiGlyphs_eq]
  exact setMulti_setDone hl ((inRange_map p n vs glyph).trans hr)

/-! ### The six operations -/

/-- Settles O34: the READY check, the range check, then the handle's path. -/
theorem setMultiResult : Obligations.SetMultiResult := fun _ p n gs =>
  ⟨exec_of_life_ne_ready rfl rfl, fun hl hr => exec_setOp_badRange rfl hl ((rangeOk_eq_false_iff p n gs).2 hr),
    fun hl hp hsum hlen => setMulti_setDone hl (inRange_of_bounds hp hsum hlen)⟩

/-- Settles O35: one glyph is in range at every position up to 15. -/
theorem setSingleResult : Obligations.SetSingleResult := fun _ _ g hl hp => setMulti_setDone hl (inRange_single_of_le hp g)

/-- Settles O45: SET_MULTI's checks over the values, then its path over the glyphs. -/
theorem setMultiHexResult : Obligations.SetMultiHexResult := fun s p n vs =>
  ⟨exec_of_life_ne_ready rfl rfl, fun hl hr => exec_setOp_badRange rfl hl ((rangeOk_eq_false_iff p n vs).2 hr),
    fun hl hp hsum hlen => setMultiGlyphs_setDone (hexGlyph s.rom) hl (inRange_of_bounds hp hsum hlen)⟩

/-- Settles O46: the run of one value. -/
theorem setSingleHexResult : Obligations.SetSingleHexResult :=
  fun s _ v hl hp => setMultiGlyphs_setDone (vs := [v]) (hexGlyph s.rom) hl (inRange_single_of_le hp v)

/-- Settles O47: an admitted run of values, encoded by CHARGLYPH. -/
theorem setMultiCharResult : Obligations.SetMultiCharResult :=
  fun s _ _ _ hl hp hsum hlen => setMultiGlyphs_setDone (charGlyph s.rom) hl (inRange_of_bounds hp hsum hlen)

/-- Settles O48: the run of one value, encoded by CHARGLYPH. -/
theorem setSingleCharResult : Obligations.SetSingleCharResult :=
  fun s _ v hl hp => setMultiGlyphs_setDone (vs := [v]) (charGlyph s.rom) hl (inRange_single_of_le hp v)

/-- Settles O40: the anode path displays the whole shadow from address 0. -/
theorem anodePeerEqualsShadow : Obligations.AnodePeerEqualsShadow := by
  intro i s hs hw hl hd
  obtain ⟨p, n, gs, hrange, hexec⟩ := exec_setOp hs s.rom
  obtain ⟨t, ht, -, hanode⟩ := setMulti_setDone hl (hrange.trans hw)
  obtain ⟨hfields, -, -, hread⟩ := hanode hd
  refine ⟨t, (hexec s rfl).trans ht, fun a ha => ?_⟩
  have hshadow : t.shadow = anodeUpdates s.shadow p.toNat gs := congrArg State.shadow hfields
  rw [hread, hshadow]
  simp [ha]

end Sys2Proof.Proofs
end

section
/-! PROOF. SCAN_KEYS and the key mask (spec/44_key_scan.md R102 to R108), and HEXGLYPH over the default table
(43_glyph_rom.md R94). -/

namespace Sys2Proof.Proofs

open Sys2Proof.Machine Sys2Proof.Safety Sys2Proof.Laws

/-! ### The mask -/

theorem getLsbD_and_0x77 (b : Byte) {k : Nat} (h3 : k % 4 ≠ 3) : (b &&& 0x77).getLsbD k = b.getLsbD k := by
  by_cases hk : k < 8
  · have hmask : ∀ k, k < 8 → k % 4 ≠ 3 → (0x77 : Byte).getLsbD k = true := by decide
    rw [BitVec.getLsbD_and, hmask k hk h3, Bool.and_true]
  · rw [BitVec.getLsbD_of_ge _ _ (Nat.le_of_not_lt hk), BitVec.getLsbD_of_ge _ _ (Nat.le_of_not_lt hk)]

/-- A row 0..2 uses raw bits 0..2 and 4..6 only. -/
theorem rawKey_map_and_0x77 (bs : List Byte) {r : Nat} (hr : r < 3) (c : Nat) :
    rawKey (bs.map (· &&& 0x77)) r c = rawKey bs r c := by
  have hbyte (j : Nat) : rawByte (bs.map (· &&& 0x77)) j = rawByte bs j &&& 0x77 := by
    simp only [rawByte, List.getD_eq_getElem?_getD, List.getElem?_map]
    cases bs[j]? with
    | none => rfl
    | some b => rfl
  rw [rawKey, rawKey, hbyte, getLsbD_and_0x77 _ (by omega)]

/-- Settles O51: the bits 3 and 7 that the mask 0x77 clears are in no key's place. -/
theorem rawBitsThreeSevenIgnored : Obligations.RawBitsThreeSevenIgnored := by
  intro b0 b1 b2 b3
  refine BitVec.eq_of_getLsbD_eq fun k _ => ?_
  rw [getLsbD_keyDecode, getLsbD_keyDecode]
  by_cases hr : k / 8 < 3
  · rw [← rawKey_map_and_0x77 [b0, b1, b2, b3] hr]
    rfl
  · simp [hr]

theorem getLsbD_scanMask (high : BitVec 8) (bs : List Byte) {k : Nat} (hk : k < 24) :
    (scanMask high bs).getLsbD k = (keyDecode bs).getLsbD k := by
  rw [scanMask, BitVec.getLsbD_append, BitVec.getLsbD_setWidth]
  simp [hk]

/-! ### The scan (R108) -/

theorem exec_scan_of_ready {s : State} (h : s.life = .ready) : exec .scan s = .next (scanKeys s) :=
  whenReady_of_life_ready h _

/-- Settles O52: the next state is `scanKeys_cases`, and the free bits stand above bit 23. -/
theorem scanKeysResult : Obligations.ScanKeysResult := by
  intro s hl
  obtain ⟨bs, d, high, hlen, -, hscan⟩ := scanKeys_cases s
  refine ⟨scanKeys s, bs, scanMask high bs, exec_scan_of_ready hl, hlen, ?_, fun k => getLsbD_scanMask high bs⟩
  rw [hscan]
  rfl

/-- The raw bit of a key in the reference peer's four bytes is the key's (R49, R102). -/
theorem rawKey_keyBytes (keys : BitVec 24) {r c : Nat} (hr : r < 3) (hc : c < 8) :
    rawKey [keyByte keys 0, keyByte keys 1, keyByte keys 2, keyByte keys 3] r c = keyAt keys r c := by
  have hbit (j : Nat) : (keyByte keys j).getLsbD r = keyAt keys r (2 * j) ∧
      (keyByte keys j).getLsbD (r + 4) = keyAt keys r (2 * j + 1) := by
    rw [keyByte, getLsbD_byteOfLevels, getLsbD_byteOfLevels]
    interval_cases r <;> exact ⟨rfl, rfl⟩
  rw [rawKey]
  interval_cases c <;> simp [rawByte, hbit]

/-- Settles O53: the bytes read are the peer's four key bytes, and KEYDECODE takes each key's bit from its place there. -/
theorem scanReadsReferenceKeys : Obligations.ScanReadsReferenceKeys := by
  intro s hl hsource
  obtain ⟨bs, d, high, -, hread, hscan⟩ := scanKeys_cases s
  rw [xfer_reference s hsource] at hread
  refine ⟨scanKeys s, scanMask high bs, exec_scan_of_ready hl, by rw [hscan], fun r c hr hc => ?_⟩
  rw [getLsbD_scanMask _ _ (by omega), getLsbD_keyDecode_key hr hc, ← hread, rawKey_keyBytes _ hr hc]

/-! ### HEXGLYPH -/

/-- Settles O43: the default table has an entry for the keys 0 to 15, and above it the statement's list is blank too. -/
theorem hexGlyphValues : Obligations.HexGlyphValues := by
  intro v
  rw [← glyphKey_toNat]
  by_cases h : (glyphKey v).toNat ≤ 15
  · rw [hexGlyph, if_pos h]
    rfl
  · rw [hexGlyph, if_neg h, List.getD_eq_default _ _ (by simp; omega)]
    rfl

end Sys2Proof.Proofs
end

section
/-! PROOF. The events an instruction adds to the trace, and three readings of them: as transactions, as framing and as
delays (spec/20_memory.md R45, 40_bus_transport.md R67 to R71, 70_reset_and_hazards.md R127, R128, R130). -/

namespace Sys2Proof.Proofs

open Sys2Proof.Machine Sys2Proof.Safety Sys2Proof.Laws

/-! ### The events an instruction adds -/

/-- The lists of events that an instruction other than INITIALIZE adds to the trace. -/
inductive Emitted : List Event → Prop
  | nothing : Emitted []
  | deinit : Emitted [.platDeinit]
  | command (c : Byte) (hc : emittedCommand c = true) : Emitted (sendEvents [c])
  | display (a : BitVec 4) (gs : List Byte) (hlen : gs.length ≤ 16) :
    Emitted (sendEvents [0x40] ++ sendEvents (cmdAddr a :: gs))
  | scan (bs : List Byte) (hlen : bs.length = 4) : Emitted (xferEvents 0x42 bs)

theorem emitted_or_init_of_exec {i : Instr} {s t : State} (h : exec i s = .next t) :
    Emitted (newEvents s t) ∨ isInit i = true ∧ newEvents s t = initEvents := by
  obtain ⟨es, htrace, hes⟩ : ∃ es, t.trace = s.trace ++ es ∧ (Emitted es ∨ isInit i = true ∧ es = initEvents) := by
    cases execResult_of_exec h with
    | refused => exact ⟨[], (List.append_nil _).symm, .inl .nothing⟩
    | initialized _ hinit => exact ⟨_, rfl, .inr ⟨hinit, rfl⟩⟩
    | released => exact ⟨_, rfl, .inl .deinit⟩
    | commanded c _ hc => exact ⟨_, rfl, .inl (.command c hc)⟩
    | displayed a gs _ _ _ hlen => exact ⟨_, rfl, .inl (.display a gs hlen)⟩
    | scanned bs _ _ _ hlen => exact ⟨_, rfl, .inl (.scan bs hlen)⟩
  rw [newEvents_of_append s t es htrace]
  exact hes

theorem emitted_of_exec {i : Instr} {s t : State} (hi : isInit i = false) (h : exec i s = .next t) :
    Emitted (newEvents s t) := by
  obtain hemit | ⟨hinit, -⟩ := emitted_or_init_of_exec h
  · exact hemit
  · rw [hinit] at hi
    cases hi

/-- The events of READ_BYTES, each byte's bits taken by their index, bit 0 first (R67). -/
theorem readEvents_eq_range (bs : List Byte) :
    readEvents bs = .dioDir .input :: .delay 5 :: bs.flatMap fun b => (List.range 8).flatMap (fun m =>
      [.clk false, .delay 1, .clk true, .dioSample (b.getLsbD m), .delay 1]) ++ [.delay 2] := rfl

/-- Settles O22: the record update of `readBytes_any`, its events spelled out bit by bit. -/
theorem readBytesResult : Obligations.ReadBytesResult := by
  intro n s
  obtain ⟨bs, d, rx, hlen, hread⟩ := readBytes_any n s
  have hclk : (decide (n ≠ 0) || s.pins.clk) = if n = 0 then s.pins.clk else true := by
    by_cases hn : n = 0 <;> simp [hn]
  rw [hclk, readEvents_eq_range] at hread
  exact ⟨bs, _, hread, hlen, rfl⟩

/-! ### Properties of a list of events that a prefix keeps -/

/-- `es` may stand before any events that have the property. -/
def Keeps (P : List Event → Prop) (es : List Event) : Prop := ∀ fs, P fs → P (es ++ fs)

theorem keeps_nil {P : List Event → Prop} : Keeps P [] := fun _ h => h

theorem Keeps.append {P : List Event → Prop} {es fs : List Event} (he : Keeps P es) (hf : Keeps P fs) :
    Keeps P (es ++ fs) := by
  intro gs hg
  rw [List.append_assoc]
  exact he _ (hf _ hg)

theorem Keeps.flatMap {α : Type} {P : List Event → Prop} {g : α → List Event} (h : ∀ x, Keeps P (g x)) (xs : List α) :
    Keeps P (xs.flatMap g) := by
  induction xs with
  | nil => exact keeps_nil
  | cons x xs ih => exact (h x).append ih

/-- The pieces of WRITE_BYTES and READ_BYTES keep the property (R66, R67). -/
structure BytesKeep (P : List Event → Prop) : Prop where
  toOutput : Keeps P [.dioDir .output]
  writeBit (l : Level) : Keeps P (writeBitEvents l)
  toInput : Keeps P [.dioDir .input, .delay 5]
  readBit (l : Level) : Keeps P (readBitEvents l)
  afterByte : Keeps P [.delay 2]

theorem BytesKeep.write {P : List Event → Prop} (h : BytesKeep P) (bs : List Byte) : Keeps P (writeEvents bs) :=
  h.toOutput.append (.flatMap (fun b => .flatMap h.writeBit (bitsOf b)) bs)

theorem BytesKeep.read {P : List Event → Prop} (h : BytesKeep P) (bs : List Byte) : Keeps P (readEvents bs) :=
  h.toInput.append (.flatMap (fun b => (Keeps.flatMap h.readBit (bitsOf b)).append h.afterByte) bs)

/-- What whole transactions and PlatDeinit keep, an instruction's events keep. -/
theorem Emitted.keeps {P : List Event → Prop} {es : List Event} (hdeinit : Keeps P [.platDeinit])
    (hsend : ∀ bs, Keeps P (sendEvents bs)) (hxfer : ∀ cmd bs, Keeps P (xferEvents cmd bs)) (h : Emitted es) :
    Keeps P es := by
  cases h with
  | nothing => exact keeps_nil
  | deinit => exact hdeinit
  | command c => exact hsend [c]
  | display a gs => exact (hsend [0x40]).append (hsend (cmdAddr a :: gs))
  | scan bs => exact hxfer 0x42 bs

theorem Keeps.of_nil {P : List Event → Prop} {es : List Event} (h : Keeps P es) (hnil : P []) : P es :=
  List.append_nil es ▸ h [] hnil

/-! ### Framing (R69, R71, R130) -/

/-- The framing from inside, and from outside, a transaction. -/
def Framed (inside : Bool) (es : List Event) : Prop := bracketedFrom inside es = true

/-- While STB is low all that WRITE_BYTES and READ_BYTES do is allowed. -/
theorem bytesKeep_framed : BytesKeep (Framed true) where
  toOutput _ h := h
  writeBit _ _ h := h
  toInput _ h := h
  readBit _ _ h := h
  afterByte _ h := h

/-- A transaction goes from STB high to STB high (R69). -/
theorem keeps_framed_transaction {es : List Event} (h : Keeps (Framed true) es) :
    Keeps (Framed false) (.stb false :: (es ++ [.stb true])) := by
  intro fs hf
  have hinside : Framed true (es ++ ([.stb true] ++ fs)) := h _ hf
  rw [← List.append_assoc] at hinside
  exact hinside

/-- Settles O24: an instruction's events are whole transactions, each of them framed. -/
theorem framingHolds : Obligations.FramingHolds := fun _ _ _ hi h =>
  ((emitted_of_exec hi h).keeps (P := Framed false) (fun _ hf => hf)
    (fun bs => keeps_framed_transaction (bytesKeep_framed.write bs))
    (fun cmd bs => keeps_framed_transaction ((bytesKeep_framed.write [cmd]).append (bytesKeep_framed.read bs)))).of_nil rfl

/-! ### Delays (R127, R128) -/

/-- Whatever running count of at least `k` the counting `f` begins with, every count it makes over the events is at least
`k`. -/
def CountsReach (f : Option Nat → List Event → List Nat) (k : Nat) (es : List Event) : Prop :=
  ∀ since : Option Nat, (∀ n ∈ since, k ≤ n) → ∀ u ∈ f since es, k ≤ u

/-- Every count over an instruction's events reaches `k` if the transport's pieces keep that. -/
theorem Emitted.counts_reach {f : Option Nat → List Event → List Nat} {k : Nat} {es : List Event} (he : Emitted es)
    (hnil : CountsReach f k []) (hbytes : BytesKeep (CountsReach f k)) (hstb : ∀ l, Keeps (CountsReach f k) [.stb l])
    (hdeinit : Keeps (CountsReach f k) [.platDeinit]) : ∀ u ∈ f none es, k ≤ u :=
  (he.keeps hdeinit (fun bs => (hstb false).append ((hbytes.write bs).append (hstb true)))
    (fun cmd bs => (hstb false).append (((hbytes.write [cmd]).append (hbytes.read bs)).append (hstb true)))).of_nil hnil
    none nofun

theorem le_of_mem_toList {since : Option Nat} {k u : Nat} (h : ∀ n ∈ since, k ≤ n) (hu : u ∈ since.toList) : k ≤ u :=
  h u (Option.mem_toList.1 hu)

theorem le_of_mem_map_add {since : Option Nat} {k : Nat} (h : ∀ n ∈ since, k ≤ n) (d : Nat) :
    ∀ n ∈ since.map (· + d), k ≤ n := by
  intro n hn
  obtain ⟨m, hm, rfl⟩ := Option.mem_map.1 hn
  exact (h m hm).trans (Nat.le_add_right m d)

/-- A bit written or read ends the running CLK phase, makes one of one unit and begins one with one unit. -/
theorem clkPhases_bit {fs : List Event} (hf : CountsReach clkPhasesFrom 1 fs) {since : Option Nat}
    (h : ∀ n ∈ since, 1 ≤ n) : ∀ u ∈ since.toList ++ 1 :: clkPhasesFrom (some 1) fs, 1 ≤ u := by
  intro u hu
  obtain hu | hu := List.mem_append.1 hu
  · exact le_of_mem_toList h hu
  · obtain rfl | hu := List.mem_cons.1 hu
    · exact le_rfl
    · exact hf (some 1) (by simp) u hu

/-- Every CLK phase lasts at least one unit (R66, R67, R128). -/
theorem clkPhases_reach {es : List Event} (he : Emitted es) : ∀ u ∈ clkPhases es, 1 ≤ u :=
  he.counts_reach (fun _ h _ => le_of_mem_toList h)
    { toOutput := fun _ hf => hf
      writeBit := fun _ _ hf _ h => clkPhases_bit hf h
      toInput := fun _ hf _ h => hf _ (le_of_mem_map_add h 5)
      readBit := fun _ _ hf _ h => clkPhases_bit hf h
      afterByte := fun _ hf _ h => hf _ (le_of_mem_map_add h 2) }
    (fun _ _ hf => hf) fun _ hf => hf

/-- A bit written or read ends a running settle count at its first event. -/
theorem readSettles_bit {fs : List Event} (hf : CountsReach readSettlesFrom 5 fs) {since : Option Nat}
    (h : ∀ n ∈ since, 5 ≤ n) : ∀ u ∈ since.toList ++ readSettlesFrom none fs, 5 ≤ u := by
  intro u hu
  obtain hu | hu := List.mem_append.1 hu
  · exact le_of_mem_toList h hu
  · exact hf none nofun u hu

/-- Five units pass between a turn of DIO to input and the next fall of CLK (R67, R127). -/
theorem readSettles_reach {es : List Event} (he : Emitted es) : ∀ u ∈ readSettles es, 5 ≤ u :=
  he.counts_reach (fun _ _ => nofun)
    { toOutput := fun _ hf => hf
      writeBit := fun _ _ hf _ h => readSettles_bit hf h
      toInput := fun _ hf _ _ => hf (some 5) (by simp)
      readBit := fun _ _ hf _ h => readSettles_bit hf h
      afterByte := fun _ hf _ h => hf _ (le_of_mem_map_add h 2) }
    (fun _ _ hf => hf) fun _ hf => hf

/-- Settles O28: the counts are at least one unit and five units, which T_UNIT makes long enough. -/
theorem peerTimingRespected : Obligations.PeerTimingRespected := by
  rintro tUnit peerTwait peerMinHalf ⟨hsettle, hhalf⟩ i s t hi h
  have hemit := emitted_of_exec hi h
  refine ⟨fun u hu => ?_, fun u hu => ?_⟩
  · calc peerMinHalf ≤ tUnit := hhalf
      _ = 1 * tUnit := (Nat.one_mul _).symm
      _ ≤ u * tUnit := Nat.mul_le_mul_right _ (clkPhases_reach hemit u hu)
  · exact hsettle.trans (Nat.mul_le_mul_right _ (readSettles_reach hemit u hu))

end Sys2Proof.Proofs
end

section
/-! PROOF. The transaction view over the events the transport makes (spec/20_memory.md R35, R45, 40_bus_transport.md R69). -/

namespace Sys2Proof.Proofs

open Sys2Proof.Machine Sys2Proof.Safety Sys2Proof.Laws

/-- The receiver between two bytes of an open transaction with the items so far. -/
def betweenBytes (items : List BusItem) : Receiver := { isOpen := true, wrBits := [], rdBits := [], items := items }

/-- With DIO in direction `d`, the events take the view's receiver from `rx` to `rx'`, finish no transaction, and leave DIO's
direction. -/
def Hears (d : DioDir) (es : List Event) (rx rx' : Receiver) : Prop :=
  ∀ pins : Pins, pins.dioDir = d → ∃ pins' : Pins, pins'.dioDir = d ∧
    ∀ fs, transactionsFrom pins rx (es ++ fs) = transactionsFrom pins' rx' fs

theorem hears_nil (d : DioDir) (rx : Receiver) : Hears d [] rx rx := fun pins hd => ⟨pins, hd, fun _ => rfl⟩

theorem Hears.append {d : DioDir} {es fs : List Event} {rx rx' rx'' : Receiver} (he : Hears d es rx rx')
    (hf : Hears d fs rx' rx'') : Hears d (es ++ fs) rx rx'' := by
  intro pins hd
  obtain ⟨pins', hd', he⟩ := he pins hd
  obtain ⟨pins'', hd'', hf⟩ := hf pins' hd'
  exact ⟨pins'', hd'', fun gs => by rw [List.append_assoc, he, hf]⟩

/-! ### Bits and bytes -/

theorem hears_writeBit {rx : Receiver} (ho : rx.isOpen = true) (l : Level) :
    Hears .output (writeBitEvents l) rx (rx.pushWr l) := by
  refine fun pins hd => ⟨{ pins with clk := true, dioOut := l }, hd, fun fs => ?_⟩
  simp [writeBitEvents, transactionsFrom, pinsAfter, Receiver.hear, ho, hd]

theorem hears_readBit {rx : Receiver} (ho : rx.isOpen = true) (l : Level) :
    Hears .input (readBitEvents l) rx (rx.pushRd l) := by
  refine fun pins hd => ⟨{ pins with clk := true }, hd, fun fs => ?_⟩
  simp [readBitEvents, transactionsFrom, pinsAfter, Receiver.hear, ho, hd]

theorem hears_bits {d : DioDir} {g : Level → List Event} {push : Receiver → Level → Receiver}
    (hbit : ∀ {rx : Receiver}, rx.isOpen = true → ∀ l, Hears d (g l) rx (push rx l))
    (hopen : ∀ rx l, (push rx l).isOpen = rx.isOpen) (ls : List Level) {rx : Receiver} (ho : rx.isOpen = true) :
    Hears d (ls.flatMap g) rx (ls.foldl push rx) := by
  induction ls generalizing rx with
  | nil => exact hears_nil d rx
  | cons l ls ih => exact (hbit ho l).append (ih ((hopen rx l).trans ho))

/-- Eight written bits, bit 0 first, are the byte written (R45, R66). -/
theorem hears_writeByte (items : List BusItem) (b : Byte) :
    Hears .output (writeByteEvents b) (betweenBytes items) (betweenBytes (items ++ [.wr b])) := by
  have hbits := hears_bits hears_writeBit pushWr_isOpen (bitsOf b) (rx := betweenBytes items) rfl
  rw [pushWr_bits _ rfl] at hbits
  exact hbits

/-- Eight samples, bit 0 first, are the byte read (R45, R67). -/
theorem hears_readByte (items : List BusItem) (b : Byte) :
    Hears .input (readByteEvents b) (betweenBytes items) (betweenBytes (items ++ [.rd b])) := by
  have hbits := hears_bits hears_readBit pushRd_isOpen (bitsOf b) (rx := betweenBytes items) rfl
  rw [pushRd_bits _ rfl] at hbits
  exact hbits.append fun pins hd => ⟨pins, hd, fun _ => rfl⟩

theorem hears_bytes {d : DioDir} {g : Byte → List Event} {item : Byte → BusItem}
    (hbyte : ∀ items b, Hears d (g b) (betweenBytes items) (betweenBytes (items ++ [item b]))) (bs : List Byte)
    (items : List BusItem) : Hears d (bs.flatMap g) (betweenBytes items) (betweenBytes (items ++ bs.map item)) := by
  induction bs generalizing items with
  | nil =>
    rw [List.map_nil, List.append_nil]
    exact hears_nil d _
  | cons b bs ih =>
    rw [List.map_cons, List.append_cons]
    exact (hbyte items b).append (ih _)

/-! ### Transactions -/

theorem transactionsFrom_stb_low (pins : Pins) (rx : Receiver) (fs : List Event) :
    transactionsFrom pins rx (.stb false :: fs) = transactionsFrom { pins with stb := false } (betweenBytes []) fs := rfl

theorem transactionsFrom_stb_high (pins : Pins) (items : List BusItem) (fs : List Event) :
    transactionsFrom pins (betweenBytes items) (.stb true :: fs) =
      items :: transactionsFrom { pins with stb := true } Receiver.closed fs := rfl

/-- WRITE_BYTES(bs) whatever DIO's direction before it. -/
theorem transactionsFrom_writeEvents (pins : Pins) (items : List BusItem) (bs : List Byte) :
    ∃ pins', ∀ fs, transactionsFrom pins (betweenBytes items) (writeEvents bs ++ fs) =
      transactionsFrom pins' (betweenBytes (items ++ written bs)) fs := by
  obtain ⟨pins', -, h⟩ := hears_bytes hears_writeByte bs items { pins with dioDir := .output } rfl
  exact ⟨pins', h⟩

/-- READ_BYTES whatever DIO's direction before it. -/
theorem transactionsFrom_readEvents (pins : Pins) (items : List BusItem) (bs : List Byte) :
    ∃ pins', ∀ fs, transactionsFrom pins (betweenBytes items) (readEvents bs ++ fs) =
      transactionsFrom pins' (betweenBytes (items ++ bs.map .rd)) fs := by
  obtain ⟨pins', -, h⟩ := hears_bytes hears_readByte bs items { pins with dioDir := .input } rfl
  exact ⟨pins', h⟩

/-- SEND(bs) is the one transaction that writes bs (R69). -/
theorem transactionsFrom_sendEvents (pins : Pins) (rx : Receiver) (bs : List Byte) :
    ∃ pins', ∀ fs, transactionsFrom pins rx (sendEvents bs ++ fs) =
      written bs :: transactionsFrom pins' Receiver.closed fs := by
  obtain ⟨pins', hw⟩ := transactionsFrom_writeEvents { pins with stb := false } [] bs
  refine ⟨{ pins' with stb := true }, fun fs => ?_⟩
  rw [sendEvents, List.cons_append, List.append_assoc, transactionsFrom_stb_low, hw]
  exact transactionsFrom_stb_high _ _ _

/-- XFER(cmd, n) is the one transaction that writes cmd and reads the n bytes (R69). -/
theorem transactionsFrom_xferEvents (pins : Pins) (rx : Receiver) (cmd : Byte) (bs : List Byte) :
    ∃ pins', ∀ fs, transactionsFrom pins rx (xferEvents cmd bs ++ fs) =
      (.wr cmd :: bs.map .rd) :: transactionsFrom pins' Receiver.closed fs := by
  obtain ⟨pins', hw⟩ := transactionsFrom_writeEvents { pins with stb := false } [] [cmd]
  obtain ⟨pins'', hr⟩ := transactionsFrom_readEvents pins' ([] ++ written [cmd]) bs
  refine ⟨{ pins'' with stb := true }, fun fs => ?_⟩
  rw [xferEvents, List.cons_append, List.append_assoc, List.append_assoc, transactionsFrom_stb_low, hw, hr]
  exact transactionsFrom_stb_high _ _ _

theorem transactionsOf_sendEvents (pins : Pins) (bs : List Byte) : transactionsOf pins (sendEvents bs) = [written bs] := by
  obtain ⟨pins', h⟩ := transactionsFrom_sendEvents pins Receiver.closed bs
  exact List.append_nil (sendEvents bs) ▸ h []

theorem transactionsOf_xferEvents (pins : Pins) (cmd : Byte) (bs : List Byte) :
    transactionsOf pins (xferEvents cmd bs) = [.wr cmd :: bs.map .rd] := by
  obtain ⟨pins', h⟩ := transactionsFrom_xferEvents pins Receiver.closed cmd bs
  exact List.append_nil (xferEvents cmd bs) ▸ h []

/-- The two transactions of DISPLAY_WRITE (R77). -/
theorem transactionsOf_displayEvents (pins : Pins) (bs cs : List Byte) :
    transactionsOf pins (sendEvents bs ++ sendEvents cs) = [written bs, written cs] := by
  obtain ⟨pins', h⟩ := transactionsFrom_sendEvents pins Receiver.closed bs
  exact (h _).trans (congrArg (written bs :: ·) (transactionsOf_sendEvents pins' cs))

/-- Settles O23: SEND and XFER make the events of one transaction each, whatever the receiver was before. -/
theorem transactionView : Obligations.TransactionView := by
  intro s cmd bs n
  obtain ⟨rs, d, -, hxfer⟩ := xfer_cases cmd n s
  refine ⟨by rw [newEvents_send, transactionsOf_sendEvents], ?_⟩
  rw [hxfer, newEvents_of_append s _ (xferEvents cmd rs) rfl, transactionsOf_xferEvents]

/-! ### The shapes (R35, R55) -/

theorem emittedTransaction_display (a : BitVec 4) {gs : List Byte} (h : gs.length ≤ 16) :
    emittedTransaction (written (cmdAddr a :: gs)) = true := by
  cases gs with
  | nil => exact emitted_cmdAddr a
  | cons g gs =>
    have ha := a.isLt
    have hc : 0xC0 ≤ (cmdAddr a).toNat ∧ (cmdAddr a).toNat ≤ 0xCF := by
      rw [cmdAddr_toNat]
      omega
    rw [List.length_cons] at h
    simp [written, emittedTransaction, hc, h]

theorem Emitted.transactions {es : List Event} (h : Emitted es) (pins : Pins) :
    ∀ tr ∈ transactionsOf pins es, emittedTransaction tr = true := by
  cases h with
  | nothing => exact nofun
  | deinit => exact nofun
  | command c hc =>
    rw [transactionsOf_sendEvents, List.forall_mem_singleton]
    exact hc
  | display a gs hlen =>
    rw [transactionsOf_displayEvents, List.forall_mem_cons, List.forall_mem_singleton]
    exact ⟨rfl, emittedTransaction_display a hlen⟩
  | scan bs hlen =>
    rw [transactionsOf_xferEvents, List.forall_mem_singleton]
    match bs, hlen with
    | [b0, b1, b2, b3], _ => rfl

/-- Settles O25: INITIALIZE sends no transaction, whatever the pins were. -/
theorem onlyFourCommandsEmitted : Obligations.OnlyFourCommandsEmitted := by
  intro i s t h
  obtain hemit | ⟨-, hinit⟩ := emitted_or_init_of_exec h
  · exact hemit.transactions s.pins
  · rw [hinit]
    exact nofun

end Sys2Proof.Proofs
end

section
/-! PROOF. What an instruction does not depend on: the display type outside the set-position family, the shadow on the cathode
path, and the peer while the oracle answers (spec/10_state.md R18, R21, 20_memory.md R30). Each is a relation of two runs
that the transport carries along. -/

namespace Sys2Proof.Proofs

open Sys2Proof.Machine Sys2Proof.Safety Sys2Proof.Laws

/-! ### One sample (R27, R49) -/

theorem sampleDio_of_oracle {s : State} (h : s.source = .oracle) :
    sampleDio s = (Config.dioLevel s.trace s.draws, { s with draws := s.draws + 1 }) := by
  simp [sampleDio, h]

theorem sampleDio_of_undriven {s : State} (h : s.peer.drives s.rx = none) :
    sampleDio s = (Config.dioLevel s.trace s.draws, { s with draws := s.draws + 1 }) := by
  cases hs : s.source <;> simp [sampleDio, hs, h]

theorem sampleDio_of_driven {s : State} {l : Level} (hs : s.source = .reference) (hl : s.peer.drives s.rx = some l) :
    sampleDio s = (l, s) := by
  simp [sampleDio, hs, hl]

/-! ### Two runs -/

/-- A relation of two states that the block cannot tell apart: it agrees on what is read, and every shared update keeps
it. -/
structure Indistinct (R : State → State → Prop) : Prop where
  life_eq {s s' : State} : R s s' → s'.life = s.life
  rom_eq {s s' : State} : R s s' → s'.rom = s.rom
  source_eq {s s' : State} : R s s' → s'.source = s.source
  trace_eq {s s' : State} : R s s' → s'.trace = s.trace
  draws_eq {s s' : State} : R s s' → s'.draws = s.draws
  drives_eq {s s' : State} : R s s' → s.source = .reference → s'.peer.drives s'.rx = s.peer.drives s.rx
  act (e : Event) {s s' : State} : R s s' → R (act e s) (act e s')
  draw (d : Nat) {s s' : State} : R s s' → R { s with draws := d } { s' with draws := d }
  refuse (r : Reason) {s s' : State} : R s s' → R (refuse r s) (refuse r s')
  returnOk (m : Option Word) {s s' : State} : R s s' → R (returnOk m s) (returnOk m s')
  release {s s' : State} : R s s' → R (release s) (release s')

namespace Indistinct

variable {R : State → State → Prop}

/-! #### The transport carries it along -/

theorem writeBit (hR : Indistinct R) (l : Level) {s s' : State} (h : R s s') : R (writeBit s l) (writeBit s' l) :=
  hR.act _ (hR.act _ (hR.act _ (hR.act _ (hR.act _ h))))

theorem writeByte (hR : Indistinct R) (b : Byte) {s s' : State} (h : R s s') : R (writeByte s b) (writeByte s' b) :=
  List.foldl_rel h fun _ _ _ _ => hR.writeBit _

theorem writeBytes (hR : Indistinct R) (bs : List Byte) {s s' : State} (h : R s s') :
    R (writeBytes bs s) (writeBytes bs s') :=
  List.foldl_rel (hR.act _ h) fun b _ _ _ => hR.writeByte b

theorem send (hR : Indistinct R) (bs : List Byte) {s s' : State} (h : R s s') : R (send bs s) (send bs s') :=
  hR.act _ (hR.writeBytes bs (hR.act _ h))

/-- A read gives the same result and related states. -/
def SameRead {α : Type} (R : State → State → Prop) (x x' : α × State) : Prop := x'.1 = x.1 ∧ R x.2 x'.2

theorem sampleDio (hR : Indistinct R) {s s' : State} (h : R s s') : SameRead R (sampleDio s) (sampleDio s') := by
  have hdrawn : SameRead R (Config.dioLevel s.trace s.draws, { s with draws := s.draws + 1 })
      (Config.dioLevel s'.trace s'.draws, { s' with draws := s'.draws + 1 }) := by
    refine ⟨by rw [hR.trace_eq h, hR.draws_eq h], ?_⟩
    rw [hR.draws_eq h]
    exact hR.draw _ h
  cases hs : s.source with
  | oracle =>
    rw [sampleDio_of_oracle hs, sampleDio_of_oracle ((hR.source_eq h).trans hs)]
    exact hdrawn
  | reference =>
    have hs' := (hR.source_eq h).trans hs
    have hdrives := hR.drives_eq h hs
    cases hl : s.peer.drives s.rx with
    | none =>
      rw [sampleDio_of_undriven hl, sampleDio_of_undriven (hdrives.trans hl)]
      exact hdrawn
    | some l =>
      rw [sampleDio_of_driven hs hl, sampleDio_of_driven hs' (hdrives.trans hl)]
      exact ⟨rfl, h⟩

theorem readBit (hR : Indistinct R) {s s' : State} (h : R s s') : SameRead R (readBit s) (readBit s') := by
  obtain ⟨hl, hs⟩ := hR.sampleDio (hR.act (.clk true) (hR.act (.delay Config.readHalfUnits) (hR.act (.clk false) h)))
  refine ⟨hl, ?_⟩
  rw [Machine.readBit, Machine.readBit]
  dsimp only
  rw [hl]
  exact hR.act _ (hR.act _ hs)

theorem readBits (hR : Indistinct R) (k m : Nat) (b : Byte) {s s' : State} (h : R s s') :
    SameRead R (readBits k m b s) (readBits k m b s') := by
  induction k generalizing m b s s' with
  | zero => exact ⟨rfl, h⟩
  | succ k ih =>
    obtain ⟨hl, hs⟩ := hR.readBit h
    rw [readBits_succ, readBits_succ, hl]
    exact ih _ _ hs

theorem readByte (hR : Indistinct R) {s s' : State} (h : R s s') : SameRead R (readByte s) (readByte s') := by
  obtain ⟨hb, hs⟩ := hR.readBits 8 0 0x00 h
  exact ⟨hb, hR.act _ hs⟩

theorem readLoop (hR : Indistinct R) (n : Nat) {s s' : State} (h : R s s') :
    SameRead R (readLoop n s) (readLoop n s') := by
  induction n generalizing s s' with
  | zero => exact ⟨rfl, h⟩
  | succ n ih =>
    obtain ⟨hb, hs⟩ := hR.readByte h
    obtain ⟨hbs, hs⟩ := ih hs
    rw [readLoop_succ, readLoop_succ, hb, hbs]
    exact ⟨rfl, hs⟩

theorem xfer (hR : Indistinct R) (cmd : Byte) (n : Nat) {s s' : State} (h : R s s') :
    SameRead R (xfer cmd n s) (xfer cmd n s') := by
  obtain ⟨hb, hs⟩ := hR.readLoop n (hR.act _ (hR.act _ (hR.writeBytes [cmd] (hR.act _ h))))
  exact ⟨hb, hR.act _ hs⟩

/-! #### The instructions carry it along -/

theorem scanKeys (hR : Indistinct R) {s s' : State} (h : R s s') : R (scanKeys s) (scanKeys s') := by
  obtain ⟨hb, hs⟩ := hR.xfer cmdDataRead 4 h
  have hd := hR.draws_eq hs
  rw [Machine.scanKeys, Machine.scanKeys]
  dsimp only
  rw [hb, hd]
  exact hR.returnOk _ (hR.draw _ hs)

/-- Both runs answer a next state, and the two are related. -/
def NextRelated (R : State → State → Prop) (o o' : Host.Outcome State Fault Refusal) : Prop :=
  ∃ t t', o = .next t ∧ o' = .next t' ∧ R t t'

theorem whenReady (hR : Indistinct R) {s s' : State} (h : R s s') {o o' : Host.Outcome State Fault Refusal}
    (ho : s.life = .ready → NextRelated R o o') : NextRelated R (whenReady s o) (whenReady s' o') := by
  by_cases hl : s.life = .ready
  · rw [whenReady_of_life_ready hl, whenReady_of_life_ready ((hR.life_eq h).trans hl)]
    exact ho hl
  · have hl' : s'.life ≠ .ready := by
      rw [hR.life_eq h]
      exact hl
    exact ⟨_, _, whenReady_of_life_ne_ready hl _, whenReady_of_life_ne_ready hl' _, hR.refuse .notReady h⟩

theorem exec (hR : Indistinct R) {i : Instr} (hs : isSetOp i = false) (hi : isInit i = false) {s s' : State} (h : R s s') :
    NextRelated R (exec i s) (exec i s') := by
  cases i with
  | dataWrite | dataRead | addrSet | dispCtrl => exact ⟨_, _, rfl, rfl, hR.send _ h⟩
  | deinit => exact hR.whenReady h fun _ => ⟨_, _, rfl, rfl, hR.release h⟩
  | config br on => exact hR.whenReady h fun _ => ⟨_, _, rfl, rfl, hR.returnOk none (hR.send _ h)⟩
  | scan => exact hR.whenReady h fun _ => ⟨_, _, rfl, rfl, hR.scanKeys h⟩
  | init => cases hi
  | sets | setm | setsHex | setmHex | setsChar | setmChar => cases hs

/-- A set operation carries it along if each path does. -/
theorem exec_setOp (hR : Indistinct R) {i : Instr} (hs : isSetOp i = true) {s s' : State} (h : R s s')
    (hd : s'.dtype = s.dtype)
    (hshadow : s.dtype = .anode → s'.shadow = s.shadow ∧ ∀ sh, R { s with shadow := sh } { s' with shadow := sh }) :
    NextRelated R (Machine.exec i s) (Machine.exec i s') := by
  obtain ⟨p, n, gs, -, hexec⟩ := Proofs.exec_setOp hs s.rom
  rw [hexec s rfl, hexec s' (hR.rom_eq h), setMulti, setMulti, hd]
  refine hR.whenReady h fun _ => ?_
  by_cases hr : inRange p n gs = true
  · rw [if_pos hr, if_pos hr]
    refine ⟨_, _, rfl, rfl, hR.returnOk none ?_⟩
    cases hdtype : s.dtype with
    | cathode => exact hR.send _ (hR.send _ h)
    | anode =>
      obtain ⟨hsh, hput⟩ := hshadow hdtype
      rw [setAnode, setAnode, hsh]
      exact hR.send _ (hR.send _ (hput _))
  · rw [if_neg hr, if_neg hr]
    exact ⟨_, _, rfl, rfl, hR.refuse .badRange h⟩

end Indistinct

theorem exec_eq_of_nextRelated {R : State → State → Prop} {o o' : Host.Outcome State Fault Refusal} {t : State}
    (h : Indistinct.NextRelated R o o') (ho : o = .next t) : ∃ t', o' = .next t' ∧ R t t' := by
  obtain ⟨u, t', hu, ht', hR⟩ := h
  obtain rfl : u = t := Host.Outcome.next.inj (hu.symm.trans ho)
  exact ⟨t', ht', hR⟩

/-! ### The display type and the shadow (R18, R21) -/

/-- The second state has the display type `d` and the shadow `sh`, and is otherwise the first. -/
def DiffersInDisplay (d : DisplayType) (sh : Shadow) (s s' : State) : Prop := s' = { s with dtype := d, shadow := sh }

theorem indistinct_display (d : DisplayType) (sh : Shadow) : Indistinct (DiffersInDisplay d sh) where
  life_eq := by rintro _ _ rfl; rfl
  rom_eq := by rintro _ _ rfl; rfl
  source_eq := by rintro _ _ rfl; rfl
  trace_eq := by rintro _ _ rfl; rfl
  draws_eq := by rintro _ _ rfl; rfl
  drives_eq := by rintro _ _ rfl _; rfl
  act e := by rintro _ _ rfl; rfl
  draw n := by rintro _ _ rfl; rfl
  refuse r := by rintro _ _ rfl; rfl
  returnOk m := by rintro _ _ rfl; rfl
  release := by rintro _ _ rfl; rfl

/-- An admitted INITIALIZE overwrites the display type (R109). -/
theorem bringUp_dtype_irrelevant (d d' : DisplayType) (s : State) : bringUp d { s with dtype := d' } = bringUp d s := by
  rw [bringUp_eq, bringUp_eq]

/-- Settles O54: the two runs keep apart in the display type only; an admitted INITIALIZE overwrites it. -/
theorem onlySetOpsReadDtype : Obligations.OnlySetOpsReadDtype := by
  intro i s t d hset h
  refine ⟨fun hinit => ?_, fun hinit hw => ?_⟩
  · obtain ⟨-, -, hshadow⟩ := whoWritesTheBlockState i s t h hinit
    obtain ⟨t', ht', rfl⟩ := exec_eq_of_nextRelated
      ((indistinct_display d s.shadow).exec hset hinit (s := s) (s' := { s with dtype := d }) rfl) h
    rw [ht', ← hshadow (.inl hset)]
  · obtain ⟨x, rfl⟩ := exists_eq_init_of_isInit hinit
    cases hx : displayType x with
    | none => exact absurd hw (Bool.eq_false_iff.1 ((displayType_eq_none_iff x).1 hx))
    | some d' =>
      rw [← h, exec_init_of_displayType_eq_some hx, exec_init_of_displayType_eq_some hx, bringUp_dtype_irrelevant]

/-- Settles O55: the two runs keep apart in the shadow only, as neither takes the anode path. -/
theorem cathodeIgnoresShadow : Obligations.CathodeIgnoresShadow := by
  intro i s t sh hinit hd h
  obtain ⟨-, hdtype, -⟩ := whoWritesTheBlockState i s t h hinit
  have hR := indistinct_display .cathode sh
  have hstart : DiffersInDisplay .cathode sh s { s with shadow := sh } := by rw [DiffersInDisplay, ← hd]
  have hrelated : Indistinct.NextRelated (DiffersInDisplay .cathode sh) (exec i s) (exec i { s with shadow := sh }) := by
    cases hset : isSetOp i with
    | false => exact hR.exec hset hinit hstart
    | true =>
      refine hR.exec_setOp hset hstart rfl fun hanode => ?_
      rw [hd] at hanode
      cases hanode
  obtain ⟨t', ht', rfl⟩ := exec_eq_of_nextRelated hrelated h
  rw [ht', ← hd, ← hdtype]

/-! ### The peer (R30, R46) -/

/-- The oracle answers, and the two states are the same but for the peer. -/
def DiffersInPeer (s s' : State) : Prop := s.source = .oracle ∧ ∃ q : Peer, s' = { s with peer := q }

theorem indistinct_peer : Indistinct DiffersInPeer where
  life_eq := by rintro _ _ ⟨-, _, rfl⟩; rfl
  rom_eq := by rintro _ _ ⟨-, _, rfl⟩; rfl
  source_eq := by rintro _ _ ⟨-, _, rfl⟩; rfl
  trace_eq := by rintro _ _ ⟨-, _, rfl⟩; rfl
  draws_eq := by rintro _ _ ⟨-, _, rfl⟩; rfl
  drives_eq := by
    rintro s _ ⟨horacle, -⟩ hreference
    rw [horacle] at hreference
    cases hreference
  act e := by rintro _ _ ⟨horacle, _, rfl⟩; exact ⟨horacle, _, rfl⟩
  draw n := by rintro _ _ ⟨horacle, _, rfl⟩; exact ⟨horacle, _, rfl⟩
  refuse r := by rintro _ _ ⟨horacle, _, rfl⟩; exact ⟨horacle, _, rfl⟩
  returnOk m := by rintro _ _ ⟨horacle, _, rfl⟩; exact ⟨horacle, _, rfl⟩
  release := by rintro _ _ ⟨horacle, _, rfl⟩; exact ⟨horacle, _, rfl⟩

theorem differsInPeer_bringUp (d : DisplayType) {s : State} (horacle : s.source = .oracle) (q : Peer) :
    DiffersInPeer (bringUp d s) (bringUp d { s with peer := q }) := by
  rw [bringUp_eq, bringUp_eq]
  exact ⟨horacle, _, rfl⟩

/-- Settles O56: while the oracle answers, no read and no check looks at the peer. -/
theorem blockIgnoresPeerState : Obligations.BlockIgnoresPeerState := by
  intro i s t q horacle h
  have hstart : DiffersInPeer s { s with peer := q } := ⟨horacle, q, rfl⟩
  have hrelated : Indistinct.NextRelated DiffersInPeer (exec i s) (exec i { s with peer := q }) := by
    cases hset : isSetOp i with
    | true => exact indistinct_peer.exec_setOp hset hstart rfl fun _ => ⟨rfl, fun sh => ⟨horacle, q, rfl⟩⟩
    | false =>
      cases hinit : isInit i with
      | false => exact indistinct_peer.exec hset hinit hstart
      | true =>
        obtain ⟨x, rfl⟩ := exists_eq_init_of_isInit hinit
        cases hx : displayType x with
        | none =>
          exact ⟨_, _, exec_init_of_displayType_eq_none hx s, exec_init_of_displayType_eq_none hx _,
            indistinct_peer.refuse .badType hstart⟩
        | some d =>
          exact ⟨_, _, exec_init_of_displayType_eq_some hx s, exec_init_of_displayType_eq_some hx _,
            differsInPeer_bringUp d horacle q⟩
  obtain ⟨t', ht', -, q', rfl⟩ := exec_eq_of_nextRelated hrelated h
  exact ⟨q', ht'⟩

end Sys2Proof.Proofs
end
